-- ==== Sys2Proof/Word.lean ====
section
/-! DEFINITION. The value types of the block (00_scope.md R7): every byte, code, element and register is unsigned. -/

namespace Sys2Proof

/-- A host port word and a register: unsigned 32 bits (R7, R38). -/
abbrev Word := BitVec 32

/-- A buffer element: unsigned 16 bits (R7, R45). -/
abbrev Elem := BitVec 16

/-- An LZW-12 code: unsigned, CODE_WIDTH = 12 bits (R4, R57). -/
abbrev Code := BitVec 12

/-- A byte: unsigned, BYTE_WIDTH = 8 bits (R4, R7). -/
abbrev Byte := BitVec 8

/-- A byte string (R8): a pattern, or a text. -/
abbrev Pattern := List Byte

end Sys2Proof
end

