-- ==== Sys2Proof/Config.lean ====
section
/-! DEFINITION. What a built block fixes (the parameters of 00_scope.md R5) and the free values of
93_implementation_defined.md. The opaque constants have no body, so no proof can see a value of theirs. -/

namespace Sys2Proof

/-- The parameter UNPACK_RESIDUE1 (R5, R67): what UNPACK does with a length 3k+1, k >= 1. -/
inductive Residue1 where
  | fault
  | overlap
  | drop
  deriving DecidableEq, Repr, Inhabited

/-- The implementation parameters of a built block (R5). -/
structure Params where
  /-- IN_DEPTH, the number of elements of IN_BUF. -/
  inDepth : Nat
  /-- OUT_DEPTH, the number of elements of OUT_BUF. -/
  outDepth : Nat
  /-- UNPACK_RESIDUE1. -/
  residue1 : Residue1
  deriving DecidableEq, Repr

/-- IN_DEPTH less one, in 0 .. 2^24 - 1 (R5: IN_DEPTH is in 1 .. 2^24 and has no fixed value). Assumption 2. -/
opaque Config.inDepthLessOne : Fin 16777216

/-- OUT_DEPTH less one (R5). Assumption 2. -/
opaque Config.outDepthLessOne : Fin 16777216

/-- UNPACK_RESIDUE1 of the block (R5). Assumption 2. -/
opaque Config.residue1 : Residue1

/-- The parameters of the block that `State.reset` resets: every value of R5 is allowed. -/
def Config.params : Params where
  inDepth := Config.inDepthLessOne.val + 1
  outDepth := Config.outDepthLessOne.val + 1
  residue1 := Config.residue1

/-- What element `i` of IN_BUF holds under fill `k` while nothing has written it (U1). Assumption 5. -/
opaque Config.freeInElem (k i : Nat) : Elem

/-- What element `i` of OUT_BUF holds under fill `k` while no command has written it (U1, U3, U4). Assumption 5. -/
opaque Config.freeOutElem (k i : Nat) : Elem

/-- What draw `k` returns for a read of OUT_LEN, ERR_INDEX, DICT_SIZE or DICT_RESETS while BUSY (U2). Assumption 5. -/
opaque Config.freeBusyWord (k : Nat) : Word

/-- What draw `k` returns for a read of an OUT_BUF element while BUSY, 16 bits (U2). Assumption 5. -/
opaque Config.freeBusyElem (k : Nat) : Elem

end Sys2Proof
end

