-- ==== Sys2Proof/Syntax.lean ====
section
/-! DEFINITION. The commands of the block (one constructor per row of the opcode table, 30_encoding.md R54), the
raw command word, the host-visible registers, and the inputs of the outside world. -/

namespace Sys2Proof

/-- The five commands (R54). A command has no operand fields: its input is IN_BUF[0 .. IN_LEN-1] (R53, R56). -/
inductive Instr where
  /-- OP 0x1: packed bytes to codes (R64). -/
  | unpack
  /-- OP 0x2: codes to packed bytes (R68). -/
  | pack
  /-- OP 0x3: codes to bytes (R73). -/
  | decode
  /-- OP 0x4: packed bytes to bytes (R84). -/
  | decodePacked
  /-- OP 0x5: bytes to codes (R87). -/
  | encode
  deriving DecidableEq, Repr

/-- The fields of a CMD32 command word before any check (R53). -/
structure CommandWord where
  /-- OP, bits [3:0]. -/
  op : BitVec 4
  /-- RSVD, bits [31:4]. -/
  rsvd : BitVec 28
  deriving DecidableEq, Repr

/-- Why a command word is illegal (R55). -/
inductive DecodeError where
  /-- Some bit of [31:4] is set. -/
  | reservedBitSet (rsvd : BitVec 28)
  /-- OP is 0x0 or in 0x6 .. 0xF. -/
  | reservedOpcode (op : BitVec 4)
  deriving DecidableEq, Repr

/-- The twelve host-visible registers (R39). -/
inductive Reg where
  | id
  | param
  | inCap
  | outCap
  | ctrl
  | cmd
  | status
  | inLen
  | outLen
  | errIndex
  | dictSize
  | dictResets
  deriving DecidableEq, Repr

/-- A transaction of the host port (R38): one whole 32-bit word at a 32-bit word address. -/
inductive Transaction where
  | read (a : Word)
  | write (a : Word) (wdata : Word)
  deriving DecidableEq, Repr

/-- One input of the outside world, or the engine's turn (R6, R49, R117). A list of these is an interleaving. -/
inductive Event where
  /-- The host performs one transaction. -/
  | host (t : Transaction)
  /-- The engine moves: it takes its step if it is BUSY (R101). -/
  | engine
  /-- The reset input rst is asserted and released (R117). -/
  | rst
  deriving DecidableEq, Repr

end Sys2Proof
end

