-- ==== Sys2Proof/WellFormed.lean ====
section
/-! DEFINITION. What makes a command word and a block's parameters well formed. -/

namespace Sys2Proof

/-- RSVD must be 0 (R53). -/
def CommandWord.rsvdOk (c : CommandWord) : Bool := c.rsvd == 0#28

/-- OP must be one of 0x1 .. 0x5 (R54, R98). -/
def CommandWord.opOk (c : CommandWord) : Bool := decide (1 ≤ c.op.toNat ∧ c.op.toNat ≤ 5)

/-- A legal command word (R55). -/
def CommandWord.wf (c : CommandWord) : Bool := c.rsvdOk && c.opOk

/-- A buffer depth is in 1 .. 2^24 (R5). -/
def depthOk (d : Nat) : Bool := decide (1 ≤ d ∧ d ≤ 16777216)

/-- Parameters that a block can be built with (R5). -/
def Params.wf (p : Params) : Bool := depthOk p.inDepth && depthOk p.outDepth

/-- The opcode of a command (R54). -/
def Instr.op : Instr → BitVec 4
  | .unpack => 0x1#4
  | .pack => 0x2#4
  | .decode => 0x3#4
  | .decodePacked => 0x4#4
  | .encode => 0x5#4

/-- A command is well formed when the word that names it is (a command has no operands to check, R53). -/
def Instr.wf (i : Instr) : Bool := CommandWord.wf { op := i.op, rsvd := 0#28 }

end Sys2Proof
end

