-- ==== Sys2Proof/Decode.lean ====
section
/-! DEFINITION. The decoder of command words (30_encoding.md R53 to R55), total on every 32-bit word and rejecting
by name, and after it the encoder. -/

namespace Sys2Proof

/-- The fields of a CMD32 word: OP = [3:0], RSVD = [31:4] (R53). A word is legal when these are well formed. -/
def CommandWord.ofWord (w : Word) : CommandWord where
  op := w.extractLsb' 0 4
  rsvd := w.extractLsb' 4 28

/-- The opcode map (R54); OP 0x0 and 0x6 .. 0xF are reserved. -/
def decodeOp (op : BitVec 4) : Except DecodeError Instr :=
  match op with
  | 0x1#4 => .ok .unpack
  | 0x2#4 => .ok .pack
  | 0x3#4 => .ok .decode
  | 0x4#4 => .ok .decodePacked
  | 0x5#4 => .ok .encode
  | op => .error (.reservedOpcode op)

/-- The command a word names (R53, R54), or why it is illegal (R55). -/
def decodeWord (w : Word) : Except DecodeError Instr :=
  if w.extractLsb' 4 28 = 0#28 then decodeOp (w.extractLsb' 0 4) else .error (.reservedBitSet (w.extractLsb' 4 28))

/-- The command word of a command (R53, R54): RSVD = 0 above OP. -/
def encode : Instr → Word
  | .unpack => 0x00000001#32
  | .pack => 0x00000002#32
  | .decode => 0x00000003#32
  | .decodePacked => 0x00000004#32
  | .encode => 0x00000005#32

/-- The decoder on an instruction of `nbits` bits of value `w`. Every command is one 32-bit word (R53), so a value
that does not fit one word is no command; bits from `nbits` up are 0. -/
def decodeTableWord (nbits w : Nat) : Option Instr :=
  let v := w % 2 ^ nbits
  if v < 2 ^ 32 then (decodeWord (BitVec.ofNat 32 v)).toOption else none

end Sys2Proof
end

