-- ==== Sys2Proof/Machine/State.lean ====
section
/-! DEFINITION. The state of the block (10_state.md, 70_reset_and_hazards.md R117), the reasons a step can stop, and
the state after reset. -/

namespace Sys2Proof.Machine

/-- The values STATUS.ERR takes (60_exceptions.md R97); the codes 7 .. 15 are never produced. -/
inductive ErrCode where
  | none
  | invalidCode
  | illegalCommand
  | length
  | framing
  | elementRange
  | outputOverflow
  deriving DecidableEq, Repr

/-- ENG_STATE (R23). -/
inductive EngState where
  | idle
  | busy
  deriving DecidableEq, Repr

/-- A buffer: (index, element) pairs, indices strictly rising, an element listed exactly when something has written
it. The unlisted elements hold free values (U1). Assumption 7. -/
abbrev Memory := List (Nat × Elem)

/-- The canonical form of a buffer: its indices rise strictly. -/
abbrev Memory.wf (m : Memory) : Prop := m.Pairwise (fun c d => c.1 < d.1)

/-- Everything the block holds between two steps, and the inputs still to come. A command's working state (D, T, M,
PREV, I, O, RESETS) exists only inside its one atomic step (R27, R28, R30, U12). -/
structure State where
  /-- IN_DEPTH, OUT_DEPTH and UNPACK_RESIDUE1 of the built block (R5); IN_CAP, OUT_CAP and PARAM report them. -/
  params : Params
  /-- CTRL.IRQ_EN (R13). -/
  irqEn : Bool
  /-- STATUS.DONE (R15). -/
  done : Bool
  /-- STATUS.ERR (R15). -/
  err : ErrCode
  /-- STATUS.OVR (R15). -/
  ovr : Bool
  /-- IN_LEN (R16). -/
  inLen : Word
  /-- OUT_LEN (R17). -/
  outLen : Word
  /-- ERR_INDEX (R18). -/
  errIndex : Word
  /-- DICT_SIZE (R19). -/
  dictSize : Word
  /-- DICT_RESETS (R20). -/
  dictResets : Word
  /-- ENG_STATE (R23); STATUS.BUSY reflects it (R15). -/
  engState : EngState
  /-- LATCHED_OP (R23). -/
  latchedOp : BitVec 4
  /-- LATCHED_LEN (R23). -/
  latchedLen : Word
  /-- IN_BUF (R25); it lists element `i` exactly when WRITTEN[i] is true. -/
  inBuf : Memory
  /-- OUT_BUF (R25). -/
  outBuf : Memory
  /-- MODEL: the free fill that IN_BUF's unlisted elements hold (assumption 5). -/
  inFill : Nat
  /-- MODEL: the free fill that OUT_BUF's unlisted elements hold (assumption 5). -/
  outFill : Nat
  /-- MODEL: the number of the next free draw (assumption 5). -/
  draws : Nat
  /-- MODEL: what the last host transaction returned: a Read a word, a Write nothing (R38, assumption 4). -/
  response : Option Word
  /-- MODEL: the inputs still to come, oldest first (R49, assumption 3). -/
  pending : List Event
  deriving DecidableEq, Repr

/-- Why the machine stops with a fault. -/
inductive Fault where
  /-- A command read IN_BUF element `i`, which nothing has written since reset. Raised by every command through
  `readInput`, as 20_memory.md R43 and U1 tell a model to. Safe: the hardware goes on with an unspecified value. -/
  | unwrittenInput (i : Nat)
  deriving DecidableEq, Repr

/-- Why a step gives no meaning. -/
inductive Refusal where
  /-- The instruction has no meaning in the model yet. Raised by `exec` only. Safe. -/
  | notModelled (mnemonic : String)
  /-- The engine is BUSY with a LATCHED_OP that names no command. Raised by `step`; no acceptance leaves such a state
  (60_exceptions.md R98), so no run reaches it. Safe (assumption 9). -/
  | latchedOpNamesNoCommand (op : BitVec 4)
  deriving DecidableEq, Repr

/-- A block with parameters `p` right after a hardware reset (70_reset_and_hazards.md R117), no input to come. -/
def State.resetFor (p : Params) : State where
  params := p
  irqEn := false
  done := false
  err := .none
  ovr := false
  inLen := 0#32
  outLen := 0#32
  errIndex := 0#32
  dictSize := 256#32
  dictResets := 0#32
  engState := .idle
  latchedOp := 0#4      -- DESIGN CHOICE: R117 leaves it unspecified, assumption 8
  latchedLen := 0#32    -- DESIGN CHOICE: R117 leaves it unspecified, assumption 8
  inBuf := []
  outBuf := []
  inFill := 0           -- DESIGN CHOICE: assumption 5
  outFill := 0          -- DESIGN CHOICE: assumption 5
  draws := 1            -- DESIGN CHOICE: assumption 5
  response := none
  pending := []

/-- The machine right after reset: R117, for parameters no one fixed (R5). -/
def State.reset : State := State.resetFor Config.params

end Sys2Proof.Machine
end

