-- ==== Sys2Proof/Machine/Flags.lean ====
section
/-! DEFINITION. The status and control bits: the words that CTRL, STATUS, PARAM and the other registers read as
(10_state.md), write one to clear, and the interrupt line. -/

namespace Sys2Proof.Machine

/-- The number of an error code in STATUS.ERR (60_exceptions.md R97). -/
def ErrCode.bits : ErrCode → BitVec 4
  | .none => 0x0#4
  | .invalidCode => 0x1#4
  | .illegalCommand => 0x2#4
  | .length => 0x3#4
  | .framing => 0x4#4
  | .elementRange => 0x5#4
  | .outputOverflow => 0x6#4

/-- The number of UNPACK_RESIDUE1 in PARAM.RESIDUE1 (R10). -/
def residueBits : Residue1 → BitVec 2
  | .fault => 0#2
  | .overlap => 1#2
  | .drop => 2#2

/-- STATUS.BUSY is ENG_STATE = BUSY (R15, R23). -/
def State.busy (s : State) : Bool := s.engState == .busy

/-- STATUS (R15): BUSY at [0], DONE at [1], ERR at [7:4], OVR at [8], every other bit 0. -/
def State.statusWord (s : State) : Word :=
  0#23 ++ BitVec.ofBool s.ovr ++ s.err.bits ++ 0#2 ++ BitVec.ofBool s.done ++ BitVec.ofBool s.busy

/-- CTRL (R13): IRQ_EN at [0], every other bit 0; SOFT_RESET always reads 0. -/
def State.ctrlWord (s : State) : Word := 0#31 ++ BitVec.ofBool s.irqEn

/-- PARAM (R10): RESIDUE1 at [5:4], CODE_WIDTH = 12 at [3:0]. -/
def paramWord (p : Params) : Word := 0#26 ++ residueBits p.residue1 ++ 12#4

/-- ID (R9). -/
def idWord : Word := 0x4C5A5701#32

/-- The exact value of a register (R9 to R20). CMD reads 0 (R14). -/
def State.regWord (s : State) : Reg → Word
  | .id => idWord
  | .param => paramWord s.params
  | .inCap => BitVec.ofNat 32 s.params.inDepth
  | .outCap => BitVec.ofNat 32 s.params.outDepth
  | .ctrl => s.ctrlWord
  | .cmd => 0#32
  | .status => s.statusWord
  | .inLen => s.inLen
  | .outLen => s.outLen
  | .errIndex => s.errIndex
  | .dictSize => s.dictSize
  | .dictResets => s.dictResets

/-- The registers whose reads are unspecified while BUSY (20_memory.md R51). -/
def isResultReg : Reg → Bool
  | .outLen | .errIndex | .dictSize | .dictResets => true
  | .id | .param | .inCap | .outCap | .ctrl | .cmd | .status | .inLen => false

/-- A write of STATUS (R15): a 1 at bit [1] clears DONE and ERR, a 1 at bit [8] clears OVR, nothing else happens. -/
def State.clearStatus (s : State) (w : Word) : State :=
  { s with
    done := s.done && !w.getLsbD 1
    err := if w.getLsbD 1 then .none else s.err
    ovr := s.ovr && !w.getLsbD 8 }

/-- The interrupt line (R22): CTRL.IRQ_EN and STATUS.DONE. -/
def State.irq (s : State) : Bool := s.irqEn && s.done

end Sys2Proof.Machine
end

