-- ==== Sys2Proof/Machine/Operands.lean ====
section
/-! DEFINITION. The operand forms: the host address map (20_memory.md R39), the element formats (R45), and the bit
fields of codes and packed bytes (30_encoding.md R58, R59, 40_bitpacker.md R65). -/

namespace Sys2Proof.Machine

/-- What a host address names (R39). -/
inductive Target where
  /-- A host-visible register. -/
  | reg (r : Reg)
  /-- IN_BUF[i], `i` below IN_DEPTH. -/
  | inElem (i : Nat)
  /-- OUT_BUF[i], `i` below OUT_DEPTH. -/
  | outElem (i : Nat)
  /-- Reserved, beyond a buffer, or unmapped: reads 0, ignores writes. -/
  | hole
  deriving DecidableEq, Repr

/-- The register at a word address (R39). -/
def regAt : Nat → Option Reg
  | 0x0 => some .id
  | 0x1 => some .param
  | 0x2 => some .inCap
  | 0x3 => some .outCap
  | 0x4 => some .ctrl
  | 0x5 => some .cmd
  | 0x6 => some .status
  | 0x7 => some .inLen
  | 0x8 => some .outLen
  | 0x9 => some .errIndex
  | 0xA => some .dictSize
  | 0xB => some .dictResets
  | _ => none

/-- The word address of a register (R39). -/
def regAddr : Reg → Word
  | .id => 0x00000000#32
  | .param => 0x00000001#32
  | .inCap => 0x00000002#32
  | .outCap => 0x00000003#32
  | .ctrl => 0x00000004#32
  | .cmd => 0x00000005#32
  | .status => 0x00000006#32
  | .inLen => 0x00000007#32
  | .outLen => 0x00000008#32
  | .errIndex => 0x00000009#32
  | .dictSize => 0x0000000A#32
  | .dictResets => 0x0000000B#32

/-- The word address of IN_BUF[i] (R39). -/
def inAddr (i : Nat) : Word := 0x01000000#32 + BitVec.ofNat 32 i

/-- The word address of OUT_BUF[i] (R39). -/
def outAddr (i : Nat) : Word := 0x02000000#32 + BitVec.ofNat 32 i

/-- The address map (R39): the top byte of an address picks the space, the low 24 bits count inside it. -/
def target (p : Params) (a : Word) : Target :=
  let space := (a.extractLsb' 24 8).toNat
  let i := (a.extractLsb' 0 24).toNat
  match space with
  | 0 =>
    match regAt i with
    | some r => .reg r
    | none => .hole
  | 1 => if i < p.inDepth then .inElem i else .hole
  | 2 => if i < p.outDepth then .outElem i else .hole
  | _ => .hole

/-- The byte of a byte element, x[7:0] (R45). -/
def byteOf (x : Elem) : Byte := x.extractLsb' 0 8

/-- The code of a 12-bit code element, x[11:0] (R45). -/
def codeOf (x : Elem) : Code := x.extractLsb' 0 12

/-- A byte element out of range: bits [15:8] not zero (R45, 60_exceptions.md R109). -/
def notByte (x : Elem) : Bool := x.extractLsb' 8 8 != 0#8

/-- A PACK element out of range: bits [15:12] not zero (R45, R109). -/
def notCode (x : Elem) : Bool := x.extractLsb' 12 4 != 0#4

/-- A byte as an element: bits [15:8] are 0 (R44, R45). -/
def byteElem (b : Byte) : Elem := b.setWidth 16

/-- A code as an element: bits [15:12] are 0 (R44, R45). -/
def codeElem (c : Code) : Elem := c.setWidth 16

/-- First(p, q) = p[7:0] above q[7:4] (R65). -/
def first (p q : Byte) : Code := p ++ q.extractLsb' 4 4

/-- Second(p, q) = p[3:0] above q[7:0] (R65). -/
def second (p q : Byte) : Code := p.extractLsb' 0 4 ++ q

/-- B0 = C0[11:4] of a group (R58). -/
def groupB0 (c0 : Code) : Byte := c0.extractLsb' 4 8

/-- B1 = C0[3:0] above C1[11:8] of a group (R58). -/
def groupB1 (c0 c1 : Code) : Byte := c0.extractLsb' 0 4 ++ c1.extractLsb' 8 4

/-- B2 = C1[7:0] of a group (R58). -/
def groupB2 (c1 : Code) : Byte := c1.extractLsb' 0 8

/-- T0 = PAD above C[11:8] of a tail group, PAD = 0 (R59, R70). -/
def tailT0 (c : Code) : Byte := 0#4 ++ c.extractLsb' 8 4

/-- T1 = C[7:0] of a tail group (R59). -/
def tailT1 (c : Code) : Byte := c.extractLsb' 0 8

end Sys2Proof.Machine
end

