-- ==== Sys2Proof/Machine/Ops.lean ====
section
/-! DEFINITION. The named operations over buffers and registers, the emission of a command's output, completion with
success or with an error (60_exceptions.md R103, the block's trap entry) and the return from it (R110), command issue
(R98 to R100), resets (70_reset_and_hazards.md R117, R119), and the execution skeleton (R101). -/

namespace Sys2Proof.Machine

/-! ### Buffers -/

/-- The element a buffer lists at index `i`, if any. -/
def Memory.read? (m : Memory) (i : Nat) : Option Elem := m.lookup i

/-- Write element `i`, keeping the indices strictly rising. -/
def Memory.write : Memory → Nat → Elem → Memory
  | [], i, v => [(i, v)]
  | (a, x) :: rest, i, v =>
    if i < a then (i, v) :: (a, x) :: rest
    else if i = a then (i, v) :: rest
    else (a, x) :: Memory.write rest i v

/-- Write consecutive elements from index `i` on, in order (20_memory.md R44). -/
def Memory.writeFrom : Memory → Nat → List Elem → Memory
  | m, _, [] => m
  | m, i, v :: vs => Memory.writeFrom (m.write i v) (i + 1) vs

/-- WRITTEN[i] (10_state.md R25). -/
def State.written (s : State) (i : Nat) : Bool := (s.inBuf.read? i).isSome

/-- What IN_BUF[i] holds: the last value written, or a free value (R41, U1). -/
def State.inElem (s : State) (i : Nat) : Elem := (s.inBuf.read? i).getD (Config.freeInElem s.inFill i)

/-- What OUT_BUF[i] holds: the last value written, or a free value (R42, U1, U3, U4). -/
def State.outElem (s : State) (i : Nat) : Elem := (s.outBuf.read? i).getD (Config.freeOutElem s.outFill i)

/-- MemRead(IN, j) for j = i, ..., i+k-1 in order, or the first index nothing has written (R43). -/
def readInput (m : Memory) : (k i : Nat) → Except Nat (List Elem)
  | 0, _ => .ok []
  | k + 1, i =>
    match m.read? i with
    | none => .error i
    | some v =>
      match readInput m k (i + 1) with
      | .error j => .error j
      | .ok vs => .ok (v :: vs)

/-! ### Inputs and the port's answer -/

/-- The inputs still to come become `rest`. -/
def State.setPending (s : State) (rest : List Event) : State := { s with pending := rest }

/-- The port returns the word `v` (20_memory.md R38). -/
def State.respond (s : State) (v : Word) : State := { s with response := some v }

/-- The port returns nothing (R38). -/
def State.respondNothing (s : State) : State := { s with response := none }

/-! ### Free draws -/

/-- Take the next free draw. -/
def State.draw (s : State) : State := { s with draws := s.draws + 1 }

/-- OUT_BUF becomes unspecified as a whole: a new fill, chosen now and stable afterwards (U3, U4). -/
def State.forgetOutput (s : State) : State :=
  { s with outBuf := [], outFill := s.draws, draws := s.draws + 1 }

/-! ### What a command's body computes -/

/-- The two dictionary readbacks: the size and the overflow resets so far (R19, R20). -/
structure DictCount where
  size : Nat
  resets : Nat
  deriving DecidableEq, Repr

/-- The readbacks of a fresh dictionary (41_decode.md R81, 42_encode.md R93). -/
def DictCount.fresh : DictCount := { size := 256, resets := 0 }

/-- An error raised at an input cursor (00_scope.md R8, 60_exceptions.md R104). -/
structure CommandError where
  code : ErrCode
  cursor : Nat
  deriving DecidableEq, Repr

/-- One `emit(value, cursor)` of a body (20_memory.md R44), with the readbacks at that point. -/
structure Emission where
  value : Elem
  cursor : Nat
  dict : DictCount
  deriving DecidableEq, Repr

/-- A body run with no bound on its output: its emissions in order, the error it stops at after them, if any, and
the readbacks at its end. -/
structure Trace where
  emissions : List Emission
  stop : Option CommandError
  dict : DictCount
  deriving DecidableEq, Repr

/-- The trace that first makes the emissions `es` and then goes on as `t`. -/
def Trace.after (es : List Emission) (t : Trace) : Trace := { t with emissions := es ++ t.emissions }

/-- How a body ends: with its whole output, or with one error; with the readbacks at that point either way. -/
inductive BodyEnd where
  | success (out : List Elem) (dict : DictCount)
  | error (e : CommandError) (dict : DictCount)
  deriving DecidableEq, Repr

/-- The end of a body on an output buffer of `cap` elements. An emission when O = OUT_DEPTH raises OUTPUT_OVERFLOW at
its own cursor (R44, R106); the body's own error comes after every emission before it (R102). -/
def Trace.finish (t : Trace) (cap : Nat) : BodyEnd :=
  match t.emissions[cap]? with
  | some em => .error { code := .outputOverflow, cursor := em.cursor } em.dict
  | none =>
    match t.stop with
    | some e => .error e t.dict
    | none => .success (t.emissions.map (·.value)) t.dict

/-! ### Completion -/

/-- The dictionary readbacks at a completion, for a command that has a dictionary (R103; R72 for the others). -/
def State.writeDict (s : State) : Option DictCount → State
  | none => s
  | some d => { s with dictSize := BitVec.ofNat 32 d.size, dictResets := BitVec.ofNat 32 d.resets }

/-- The success writes of R103, on a state whose readbacks are written: OUT_BUF[0 .. O-1] is the output. -/
def State.completeOk (s : State) (out : List Elem) (d : Option DictCount) : State :=
  { s.writeDict d with
    outBuf := s.outBuf.writeFrom 0 out
    outLen := BitVec.ofNat 32 out.length
    errIndex := 0#32
    err := .none
    engState := .idle
    done := true }

/-- The error writes of R103: no output is offered, OUT_BUF is unspecified, ERR and ERR_INDEX report the error. -/
def State.completeError (s : State) (e : CommandError) (d : Option DictCount) : State :=
  { (s.writeDict d).forgetOutput with
    outLen := 0#32
    errIndex := BitVec.ofNat 32 e.cursor
    err := e.code
    engState := .idle
    done := true }

/-- The return from a completion (R110): the host's acknowledgement clears DONE and ERR. -/
def State.acknowledge (s : State) : State := s.clearStatus 0x2#32

/-! ### Command issue -/

/-- Acceptance of a legal command word (R98). -/
def State.accept (s : State) (w : Word) : State :=
  { s with
    latchedOp := w.extractLsb' 0 4
    latchedLen := s.inLen
    done := false
    err := .none
    engState := .busy }

/-- ILLEGAL_COMMAND (R99): completes at once, without BUSY. -/
def State.refuseIllegal (s : State) : State :=
  { s with err := .illegalCommand, done := true, outLen := 0#32, errIndex := 0#32 }

/-- A host write of CMD (R98): an overrun while BUSY (R100), else a refusal or an acceptance. -/
def State.issue (s : State) (w : Word) : State :=
  match s.engState with
  | .busy => { s with ovr := true }
  | .idle =>
    match decodeWord w with
    | .error _ => s.refuseIllegal
    | .ok _ => s.accept w

/-! ### Resets -/

/-- The register and engine assignments of R117; buffers, parameters, draws and inputs stay. -/
def State.resetRegs (s : State) : State :=
  let r := State.resetFor s.params
  { s with
    irqEn := r.irqEn
    done := r.done
    err := r.err
    ovr := r.ovr
    inLen := r.inLen
    outLen := r.outLen
    errIndex := r.errIndex
    dictSize := r.dictSize
    dictResets := r.dictResets
    engState := r.engState
    latchedOp := r.latchedOp
    latchedLen := r.latchedLen }

/-- An assertion of rst (R117): both buffers become unspecified and WRITTEN false, a running command is cancelled. -/
def State.hardReset (s : State) : State :=
  { s.resetRegs with
    inBuf := []
    inFill := s.draws
    outBuf := []
    outFill := s.draws
    draws := s.draws + 1
    response := none }

/-- A write of CTRL with bit [1] = 1 (R119): OUT_BUF is lost only when a command was cancelled (U4). -/
def State.softReset (s : State) (irqEn : Bool) : State :=
  let r := match s.engState with
    | .idle => s.resetRegs
    | .busy => s.resetRegs.forgetOutput
  { r with irqEn := irqEn }

/-! ### The execution skeleton -/

/-- What tells one command from another (R101): whether it has a dictionary (R72), its framing and element checks
on its input, and its body. -/
structure Command where
  hasDict : Bool
  check : Params → List Elem → Option CommandError
  body : Params → List Elem → Trace

/-- The readbacks that a completion of `c` writes. -/
def Command.readback (c : Command) (d : DictCount) : Option DictCount := if c.hasDict then some d else none

/-- The completion writes for the end of a body (R103). -/
def State.complete (s : State) (c : Command) : BodyEnd → State
  | .success out d => s.completeOk out (c.readback d)
  | .error e d => s.completeError e (c.readback d)

/-- How a command on the input `x` ends: a check's error on a fresh dictionary, or the body's end (R101, R102). -/
def Command.run (c : Command) (p : Params) (x : List Elem) : BodyEnd :=
  match c.check p x with
  | some e => .error e .fresh
  | none => (c.body p x).finish p.outDepth

/-- Execute(op, n) of R101: LENGTH (R107), the reads of x[0 .. n-1] (R43), the checks, the body, the completion. -/
def execute (c : Command) (s : State) : Host.Outcome State Fault Refusal :=
  let n := s.latchedLen.toNat
  if s.params.inDepth < n then
    .next (s.complete c (.error { code := .length, cursor := 0 } .fresh))
  else
    match readInput s.inBuf n 0 with
    | .error i => .fault (.unwrittenInput i)
    | .ok x => .next (s.complete c (c.run s.params x))

/-- ELEMENT_RANGE at the lowest index whose element is out of range (R109). -/
def elementCheck (bad : Elem → Bool) (x : List Elem) : Option CommandError :=
  (x.findIdx? bad).map (fun i => { code := .elementRange, cursor := i })

/-- FRAMING of UNPACK and DECODE_PACKED (R108): a length 3k+1, k >= 1, when UNPACK_RESIDUE1 = FAULT. -/
def framingCheck (p : Params) (n : Nat) : Option CommandError :=
  if 4 ≤ n ∧ n % 3 = 1 ∧ p.residue1 = .fault then some { code := .framing, cursor := n - 1 } else none

end Sys2Proof.Machine
end

