-- ==== Sys2Proof/Machine/BitPacker.lean ====
section
/-! DEFINITION. The packer and unpacker commands UNPACK and PACK (40_bitpacker.md). -/

namespace Sys2Proof.Machine

/-- UNPACK's codes with their cursors (R64), from byte index `i` on: a group of three bytes gives First at `i` and
Second at `i + 1`; two last bytes give the tail code at `i`; a dangling last byte after a group follows
UNPACK_RESIDUE1 (R67); a single byte gives nothing. -/
def unpackFrom (r : Residue1) : Nat → List Byte → List (Code × Nat)
  | i, [b0, b1, b2, b3] =>
    (first b0 b1, i) :: (second b1 b2, i + 1) ::
      (match r with
        | .overlap => [(second b2 b3, i + 2)]
        | .drop => []
        | .fault => [])
  | i, b0 :: b1 :: b2 :: rest => (first b0 b1, i) :: (second b1 b2, i + 1) :: unpackFrom r (i + 3) rest
  | i, [b0, b1] => [(second b0 b1, i)]
  | _, [_] => []
  | _, [] => []

/-- UNPACK_f (R71): the code sequence that UNPACK's body produces from bytes. -/
def unpackCodes (r : Residue1) (b : List Byte) : List Code := (unpackFrom r 0 b).map (·.1)

/-- PACK's bytes with their cursors (R68), from code index `i` on. -/
def packFrom : Nat → List Code → List (Byte × Nat)
  | i, c0 :: c1 :: rest =>
    (groupB0 c0, i) :: (groupB1 c0 c1, i) :: (groupB2 c1, i) :: packFrom (i + 2) rest
  | i, [c] => [(tailT0 c, i), (tailT1 c, i)]
  | _, [] => []

/-- PACK_f (R71): the byte sequence that PACK's body produces from codes. -/
def packBytes (c : List Code) : List Byte := (packFrom 0 c).map (·.1)

/-- The trace of a body that has no dictionary and no error of its own (R72). -/
def plainTrace (es : List (Elem × Nat)) : Trace where
  emissions := es.map (fun e => { value := e.1, cursor := e.2, dict := .fresh })
  stop := none
  dict := .fresh

/-- UNPACK's body (R64). -/
def unpackTrace (r : Residue1) (b : List Byte) : Trace :=
  plainTrace ((unpackFrom r 0 b).map (fun e => (codeElem e.1, e.2)))

/-- PACK's body (R68). -/
def packTrace (c : List Code) : Trace :=
  plainTrace ((packFrom 0 c).map (fun e => (byteElem e.1, e.2)))

/-- The checks of UNPACK and DECODE_PACKED: FRAMING, then ELEMENT_RANGE (R64, R102). -/
def packedCheck (p : Params) (x : List Elem) : Option CommandError :=
  match framingCheck p x.length with
  | some e => some e
  | none => elementCheck notByte x

/-- UNPACK (R64). -/
def unpackCommand : Command where
  hasDict := false
  check := packedCheck
  body p x := unpackTrace p.residue1 (x.map byteOf)

/-- PACK (R68). -/
def packCommand : Command where
  hasDict := false
  check _ x := elementCheck notCode x
  body _ x := packTrace (x.map codeOf)

/-- The engine step of UNPACK (R64, R101). -/
def execUnpack (s : State) : Host.Outcome State Fault Refusal := execute unpackCommand s

/-- The engine step of PACK (R68, R101). -/
def execPack (s : State) : Host.Outcome State Fault Refusal := execute packCommand s

end Sys2Proof.Machine
end

