-- ==== Sys2Proof/Machine/Dictionary.lean ====
section
/-! DEFINITION. The dictionary, one structure for both directions (10_state.md R33): the list of patterns, the
pattern of code `k` at position `k`. The encoder's D and the decoder's T are both held so (assumption 11). -/

namespace Sys2Proof.Machine

/-- A dictionary: the patterns of the codes 0, 1, 2, ... (R27, R28). -/
abbrev Dict := List Pattern

/-- InitEnc and InitDec (R29): the 256 one-byte patterns, each at its own value. -/
def Dict.init : Dict := (List.range 256).map (fun b => [BitVec.ofNat 8 b])

/-- ENC_NEXT, DEC_SIZE (R27, R28): the next code to assign. -/
def Dict.size (d : Dict) : Nat := d.length

/-- The pattern of a code, T[k] (R28). -/
def Dict.pattern? (d : Dict) (k : Nat) : Option Pattern := d[k]?

/-- `p ∈ dom(D)` (00_scope.md R8). -/
def Dict.known (d : Dict) (p : Pattern) : Bool := d.contains p

/-- The code of a known pattern, D[p] (R27); keys of D are unique. For a pattern that is not known it is the size:
no rule reads it there (42_encode.md R89, assumption 12). -/
def Dict.code (d : Dict) (p : Pattern) : Nat := d.idxOf p

/-- Register a pattern under the next code (R27, 41_decode.md R79, 42_encode.md R89). -/
def Dict.register (d : Dict) (p : Pattern) : Dict := d ++ [p]

/-- The one-byte pattern [p[0]] (00_scope.md R8), for a non-empty `p`. -/
def firstOf (p : Pattern) : Pattern := p.take 1

end Sys2Proof.Machine
end

