-- ==== Sys2Proof/Machine/Decoder.lean ====
section
/-! DEFINITION. The decoder commands DECODE and DECODE_PACKED (41_decode.md). -/

namespace Sys2Proof.Machine

/-- The decoder's working state inside one command (10_state.md R28, R30): T with DEC_SIZE, PREV, RESETS. -/
structure DecWork where
  table : Dict
  prev : Pattern
  resets : Nat
  deriving DecidableEq, Repr

/-- The readbacks DEC_SIZE and RESETS (R81). -/
def DecWork.count (w : DecWork) : DictCount := { size := w.table.size, resets := w.resets }

/-- The overflow reset precondition, before a code (R76); PREV is kept (R80). -/
def DecWork.beforeCode (w : DecWork) : DecWork :=
  if w.table.size > 4095 then { w with table := Dict.init, resets := w.resets + 1 } else w

/-- Classification (R77): a known key, the self-referential case, or none. -/
def DecWork.entry? (w : DecWork) (k : Nat) : Option Pattern :=
  if k < w.table.size then w.table.pattern? k
  else if k = w.table.size then some (w.prev ++ firstOf w.prev)
  else none

/-- Registration of PREV ++ [e[0]] (R79), then PREV <- e (R80). -/
def DecWork.learn (w : DecWork) (e : Pattern) : DecWork :=
  { w with table := w.table.register (w.prev ++ firstOf e), prev := e }

/-- `emit(e[t], i)` for t = 0 .. len(e)-1 (R78). -/
def emitPattern (e : Pattern) (i : Nat) (d : DictCount) : List Emission :=
  e.map (fun b => { value := byteElem b, cursor := i, dict := d })

/-- DECODE's loop over the codes from index `i` on (R73). -/
def decodeLoop : List Nat → Nat → DecWork → Trace
  | [], _, w => { emissions := [], stop := none, dict := w.count }
  | k :: ks, i, w =>
    let w := w.beforeCode
    match w.entry? k with
    | none => { emissions := [], stop := some { code := .invalidCode, cursor := i }, dict := w.count }
    | some e => (decodeLoop ks (i + 1) (w.learn e)).after (emitPattern e i w.count)

/-- DECODE's body (R73): nothing for no codes (R74); the first code must be a literal and its pattern is output
(R75); then the loop. -/
def decodeTrace : List Nat → Trace
  | [] => { emissions := [], stop := none, dict := .fresh }
  | k0 :: ks =>
    if k0 < 256 then
      let w : DecWork := { table := Dict.init, prev := [BitVec.ofNat 8 k0], resets := 0 }
      (decodeLoop ks 1 w).after (emitPattern w.prev 0 w.count)
    else { emissions := [], stop := some { code := .invalidCode, cursor := 0 }, dict := .fresh }

/-- DECODE (R73): every 16-bit element is a code to judge, so there is no element check. -/
def decodeCommand : Command where
  hasDict := true
  check _ _ := none
  body _ x := decodeTrace (x.map (·.toNat))

/-- DECODE_PACKED (R84): UNPACK's checks and codes, then DECODE's body on the codes. -/
def decodePackedCommand : Command where
  hasDict := true
  check := packedCheck
  body p x := decodeTrace ((unpackCodes p.residue1 (x.map byteOf)).map (·.toNat))

/-- The engine step of DECODE (R73, R101). -/
def execDecode (s : State) : Host.Outcome State Fault Refusal := execute decodeCommand s

/-- The engine step of DECODE_PACKED (R84, R101). -/
def execDecodePacked (s : State) : Host.Outcome State Fault Refusal := execute decodePackedCommand s

end Sys2Proof.Machine
end

