-- ==== Sys2Proof/Machine/Encoder.lean ====
section
/-! DEFINITION. The encoder command ENCODE (42_encode.md). -/

namespace Sys2Proof.Machine

/-- The encoder's working state inside one command (10_state.md R27, R30): D with ENC_NEXT, M, RESETS. -/
structure EncWork where
  dict : Dict
  m : Pattern
  resets : Nat
  deriving DecidableEq, Repr

/-- The readbacks ENC_NEXT and RESETS (R93). -/
def EncWork.count (w : EncWork) : DictCount := { size := w.dict.size, resets := w.resets }

/-- `emit(D[M], cur)` (R89, R91). -/
def EncWork.emission (w : EncWork) (cur : Nat) : Emission where
  value := BitVec.ofNat 16 (w.dict.code w.m)
  cursor := cur
  dict := w.count

/-- What a miss on byte `c` leaves (R89, R90): M ++ [c] is registered, a dictionary grown past 4095 entries is reset
at once, and M <- [c]. -/
def EncWork.afterMiss (w : EncWork) (c : Byte) : EncWork :=
  let d := w.dict.register (w.m ++ [c])
  if d.size > 4095 then { dict := Dict.init, m := [c], resets := w.resets + 1 }
  else { dict := d, m := [c], resets := w.resets }

/-- ENCODE's loop over the bytes from index `i` on, and the final flush (R87, R88, R91). -/
def encodeLoop : List Byte → Nat → EncWork → Trace
  | [], n, w =>
    { emissions := if w.m = [] then [] else [w.emission n], stop := none, dict := w.count }
  | c :: cs, i, w =>
    if w.dict.known (w.m ++ [c]) then encodeLoop cs (i + 1) { w with m := w.m ++ [c] }
    else (encodeLoop cs (i + 1) (w.afterMiss c)).after [w.emission i]

/-- ENCODE's body (R87). -/
def encodeTrace (b : List Byte) : Trace := encodeLoop b 0 { dict := Dict.init, m := [], resets := 0 }

/-- ENCODE (R87). -/
def encodeCommand : Command where
  hasDict := true
  check _ x := elementCheck notByte x
  body _ x := encodeTrace (x.map byteOf)

/-- The engine step of ENCODE (R87, R101). -/
def execEncode (s : State) : Host.Outcome State Fault Refusal := execute encodeCommand s

end Sys2Proof.Machine
end

