-- ==== Sys2Proof/Machine/Dispatch.lean ====
section
/-! DEFINITION. The engine step of each command (60_exceptions.md R101): one arm per command, one meaning per arm. -/

namespace Sys2Proof.Machine

def exec (i : Instr) (s : State) : Host.Outcome State Fault Refusal :=
  match i with
  -- the packer and unpacker (40_bitpacker.md)
  | .unpack => Sys2Proof.Machine.execUnpack s
  | .pack => Sys2Proof.Machine.execPack s
  -- the decoder (41_decode.md)
  | .decode => Sys2Proof.Machine.execDecode s
  | .decodePacked => Sys2Proof.Machine.execDecodePacked s
  -- the encoder (42_encode.md)
  | .encode => Sys2Proof.Machine.execEncode s

end Sys2Proof.Machine
end

