-- ==== Sys2Proof/Machine/HostPort.lean ====
section
/-! DEFINITION. The host port (20_memory.md R38 to R42, R50, R51): what a transaction returns and changes. -/

namespace Sys2Proof.Machine

/-- A read of OUT_BUF[i]: exact while IDLE, a free 16-bit draw while BUSY (R42, R51). -/
def State.readOutElem (s : State) (i : Nat) : State :=
  match s.engState with
  | .idle => s.respond ((s.outElem i).setWidth 32)
  | .busy => (s.respond ((Config.freeBusyElem s.draws).setWidth 32)).draw

/-- A read of a register: exact, but for a result register while BUSY, which is a free draw (R40, R51). -/
def State.readReg (s : State) (r : Reg) : State :=
  match s.engState, isResultReg r with
  | .busy, true => (s.respond (Config.freeBusyWord s.draws)).draw
  | _, _ => s.respond (s.regWord r)

/-- Read(a) (R38 to R42). -/
def hostRead (a : Word) (s : State) : State :=
  match target s.params a with
  | .reg r => s.readReg r
  | .inElem i => s.respond ((s.inElem i).setWidth 32)
  | .outElem i => s.readOutElem i
  | .hole => s.respond 0#32

/-- A write of CTRL (10_state.md R13): a soft reset when bit [1] is set, then IRQ_EN <- wdata[0]. -/
def State.writeCtrl (s : State) (w : Word) : State :=
  if w.getLsbD 1 then s.softReset (w.getLsbD 0) else { s with irqEn := w.getLsbD 0 }

/-- A write of IN_LEN: locked while BUSY (10_state.md R16, R50). -/
def State.writeInLen (s : State) (w : Word) : State :=
  match s.engState with
  | .idle => { s with inLen := w }
  | .busy => s

/-- A write of IN_BUF[i]: wdata[15:0], locked while BUSY (R41, R50). -/
def State.writeInElem (s : State) (i : Nat) (w : Word) : State :=
  match s.engState with
  | .idle => { s with inBuf := s.inBuf.write i (w.extractLsb' 0 16) }
  | .busy => s

/-- A write of a register (10_state.md R9 to R20): read-only registers ignore it. -/
def State.writeReg (s : State) (r : Reg) (w : Word) : State :=
  match r with
  | .ctrl => s.writeCtrl w
  | .cmd => s.issue w
  | .status => s.clearStatus w
  | .inLen => s.writeInLen w
  | .id | .param | .inCap | .outCap | .outLen | .errIndex | .dictSize | .dictResets => s

/-- What Write(a, w) changes (R38 to R42). -/
def hostWrite (a w : Word) (s : State) : State :=
  match target s.params a with
  | .reg r => s.writeReg r w
  | .inElem i => s.writeInElem i w
  | .outElem _ => s
  | .hole => s

/-- One host transaction (R38): a Read returns a word, a Write returns nothing. -/
def transact (t : Transaction) (s : State) : State :=
  match t with
  | .read a => hostRead a s
  | .write a w => (hostWrite a w s).respondNothing

end Sys2Proof.Machine
end

