-- ==== Sys2Proof/Machine/Step.lean ====
section
/-! DEFINITION. One step of the block (20_memory.md R49, 70_reset_and_hazards.md R124): the next input of `pending`,
or, when none is left, the engine. -/

namespace Sys2Proof.Machine

/-- The engine's turn: while BUSY, the one step that runs the command of LATCHED_OP (60_exceptions.md R101); while
IDLE, nothing. -/
def engineTurn (s : State) : Host.Outcome State Fault Refusal :=
  match s.engState with
  | .idle => .next s
  | .busy =>
    match decodeOp s.latchedOp with
    | .ok i => exec i s
    | .error _ => .refused (.latchedOpNamesNoCommand s.latchedOp)

/-- One step: the oldest pending input, each kind by its own rule; with none left, the engine moves, so that an
accepted command always completes (R124) and a run ends IDLE (R125). -/
def step (s : State) : Host.Outcome State Fault Refusal :=
  match s.pending with
  | [] => engineTurn s
  | .engine :: rest => engineTurn (s.setPending rest)
  | .host t :: rest => .next (transact t (s.setPending rest))
  | .rst :: rest => .next (s.hardReset.setPending rest)

/-- The state in which the very next step runs the command word `w` (assumption 10): accepted as R98 says (the block
BUSY with the word latched), the engine to move next. A word that names no command is instead the next host write of
CMD, on an IDLE block, which R99 refuses. -/
def State.withFetchWord (s : State) (nbits w : Nat) : State :=
  match decodeTableWord nbits w with
  | some i => (s.accept (encode i)).setPending (.engine :: s.pending)
  | none => { s with engState := .idle, pending := .host (.write (regAddr .cmd) (BitVec.ofNat 32 w)) :: s.pending }

end Sys2Proof.Machine
end

