-- ==== Sys2Proof/Machine/HostProgram.lean ====
section
/-! DEFINITION. The host-program notation (30_encoding.md R62, R63): lines, their transactions, and the
pseudo-instructions. A program is the host's, outside the block; these definitions only spell its transactions. -/

namespace Sys2Proof.Machine

/-- A `<target>` of the notation (R62). -/
inductive LineTarget where
  | reg (r : Reg)
  | inAt (i : Nat)
  | outAt (i : Nat)
  | word (a : Word)
  deriving DecidableEq, Repr

/-- address-of(target) (R62). -/
def LineTarget.addr : LineTarget → Word
  | .reg r => regAddr r
  | .inAt i => inAddr i
  | .outAt i => outAddr i
  | .word a => a

/-- A line of a host program (R62). -/
inductive Line where
  /-- `W <target>, <value>` -/
  | w (t : LineTarget) (v : Word)
  /-- `R <target>`, value discarded -/
  | r (t : LineTarget)
  /-- `R <target> == <value>` -/
  | rEq (t : LineTarget) (v : Word)
  deriving DecidableEq, Repr

/-- The transaction that encodes a line (R62). -/
def Line.transaction : Line → Transaction
  | .w t v => .write t.addr v
  | .r t => .read t.addr
  | .rEq t _ => .read t.addr

/-- Whether the word that a line's read returned is what the line expects (R62). -/
def Line.accepts (l : Line) (s : State) : Bool :=
  match l with
  | .w _ _ => true
  | .r _ => true
  | .rEq _ v => s.response == some v

/-- Lines that write consecutive IN_BUF elements from `i` on. -/
def writeIn : Nat → List Word → List Line
  | _, [] => []
  | i, v :: vs => .w (.inAt i) v :: writeIn (i + 1) vs

/-- Lines that read consecutive OUT_BUF elements from `i` on and expect the given values. -/
def expectOut : Nat → List Word → List Line
  | _, [] => []
  | i, v :: vs => .rEq (.outAt i) v :: expectOut (i + 1) vs

/-- `LOADIN v0, ..., v(n-1)` (R63). -/
def loadIn (vs : List Word) : List Line := writeIn 0 vs ++ [.w (.reg .inLen) (BitVec.ofNat 32 vs.length)]

/-- `WAITDONE` (R63) when it reads STATUS `k` times: the host's own loop ends at the first DONE it reads. -/
def waitDone (k : Nat) : List Line := List.replicate k (.r (.reg .status))

/-- The first line of `RUN <mnemonic>` (R63); `waitDone` follows it. -/
def runLine (i : Instr) : Line := .w (.reg .cmd) (encode i)

/-- `ACK` (R63): clears DONE, ERR and OVR. -/
def ackLine : Line := .w (.reg .status) 0x00000102#32

/-- The copying lines of `COPYOUT` (R63) from element `i` on, for the values the host read. -/
def copyFrom : Nat → List Word → List Line
  | _, [] => []
  | i, v :: vs => .r (.outAt i) :: .w (.inAt i) v :: copyFrom (i + 1) vs

/-- `COPYOUT` (R63) for a host that read `OUT_LEN = vs.length` and the values `vs`. -/
def copyOut (vs : List Word) : List Line :=
  .r (.reg .outLen) :: copyFrom 0 vs ++ [.w (.reg .inLen) (BitVec.ofNat 32 vs.length)]

/-- `CHECKOUT v0, ..., v(m-1)` (R63). -/
def checkOut (vs : List Word) : List Line :=
  .rEq (.reg .outLen) (BitVec.ofNat 32 vs.length) :: expectOut 0 vs

end Sys2Proof.Machine
end

