-- ==== Sys2Proof/Safety.lean ====
section
/-! DEFINITION. What claims say about a state or a run: the invariant of the block, a command's input and output,
success and failure, and the spec's own closed descriptions of what the codec computes. -/

namespace Sys2Proof.Machine

/-- The state invariant. It rules out states no run from any reset reaches. -/
structure State.Inv (s : State) : Prop where
  /-- The parameters are in their ranges (R5). -/
  params_wf : s.params.wf = true
  /-- Both buffers keep their canonical form and lie inside their depths (R25). -/
  inBuf_wf : s.inBuf.wf
  outBuf_wf : s.outBuf.wf
  inBuf_lt : ∀ c ∈ s.inBuf, c.1 < s.params.inDepth
  outBuf_lt : ∀ c ∈ s.outBuf, c.1 < s.params.outDepth
  /-- A BUSY engine holds a command (R98), and STATUS is clear of the last one (R15). -/
  busy_op : s.engState = .busy → ∃ i, decodeOp s.latchedOp = .ok i
  busy_done : s.engState = .busy → s.done = false
  /-- An error is reported only with DONE (R15, R98, R99, R103). -/
  err_done : s.err ≠ .none → s.done = true
  /-- Every counter fits (R24). -/
  outLen_le : s.outLen.toNat ≤ s.params.outDepth
  errIndex_le : s.errIndex.toNat ≤ s.params.inDepth
  /-- The dictionary readbacks (R24, R32). -/
  dictSize_ge : 256 ≤ s.dictSize.toNat
  dictSize_le : s.dictSize.toNat ≤ 4096
  dictResets_lt : s.dictResets.toNat < 16777216
  /-- The fills in use are draws already taken (the model's own fields, assumption 5). -/
  inFill_lt : s.inFill < s.draws
  outFill_lt : s.outFill < s.draws

/-- The latched command's input is `x`: its length fits IN_BUF and every element is written (R43, R56, R120). -/
def State.HasInput (s : State) (x : List Elem) : Prop :=
  s.latchedLen.toNat = x.length ∧ x.length ≤ s.params.inDepth ∧
    ∀ i (h : i < x.length), s.inBuf.read? i = some x[i]

/-- OUT_LEN and OUT_BUF[0 .. OUT_LEN-1] offer `y` (R17). -/
def State.OffersOutput (s : State) (y : List Elem) : Prop :=
  s.outLen.toNat = y.length ∧ ∀ i (h : i < y.length), s.outElem i = y[i]

/-- The state right after a completion with success and output `y` (R103). -/
def State.Succeeded (t : State) (y : List Elem) : Prop :=
  t.done = true ∧ t.err = .none ∧ t.errIndex.toNat = 0 ∧ t.engState = .idle ∧ t.OffersOutput y

/-- The state right after a completion with error `e` at cursor `cur` (R103). -/
def State.Failed (t : State) (e : ErrCode) (cur : Nat) : Prop :=
  t.done = true ∧ t.err = e ∧ t.errIndex.toNat = cur ∧ t.engState = .idle ∧ t.outLen.toNat = 0

/-- The dictionary readbacks show `size` and `resets` (R19, R20). -/
def State.ShowsDict (t : State) (size resets : Nat) : Prop :=
  t.dictSize.toNat = size ∧ t.dictResets.toNat = resets

/-- The dictionary readbacks are those of `s`. -/
def State.KeepsDict (s t : State) : Prop := t.dictSize = s.dictSize ∧ t.dictResets = s.dictResets

/-- What no command changes (R103): the parameters, IN_BUF with WRITTEN, IN_LEN, CTRL, OVR, the latches, and what
the host port has returned and has still to do. -/
def State.CommandFrame (s t : State) : Prop :=
  t.params = s.params ∧ (∀ i, t.inElem i = s.inElem i ∧ t.written i = s.written i) ∧ t.inLen = s.inLen ∧
    t.irqEn = s.irqEn ∧ t.ovr = s.ovr ∧ t.latchedOp = s.latchedOp ∧ t.latchedLen = s.latchedLen ∧
    t.response = s.response ∧ t.pending = s.pending

/-- The commands that have a dictionary (R19, R72). -/
def usesDict : Instr → Bool
  | .unpack | .pack => false
  | .decode | .decodePacked | .encode => true

/-- The readbacks of an error raised before a body starts: a fresh dictionary's for a command that has one, unchanged
for the others (R19, R72, R81, R93). -/
def State.FreshReadback (i : Instr) (s t : State) : Prop :=
  if usesDict i then t.ShowsDict 256 0 else s.KeepsDict t

/-- UNPACK of `n` bytes meets a framing error (R108). -/
def framingBad (p : Params) (n : Nat) : Prop := p.residue1 = .fault ∧ 4 ≤ n ∧ n % 3 = 1

/-- The number of codes UNPACK gives for `n` bytes (R66). -/
def unpackCount (r : Residue1) (n : Nat) : Nat :=
  if n < 2 then 0
  else 2 * (n / 3) + (if n % 3 = 2 then 1 else 0) + (if n % 3 = 1 ∧ r = .overlap then 1 else 0)

/-- The number of bytes PACK gives for `n` codes (R69). -/
def packCount (n : Nat) : Nat := 3 * (n / 2) + 2 * (n % 2)

/-- Code value `k` at index `i` of a code stream is one the decoder accepts (R75, R77, R83): a literal first, and
then at most DEC_SIZE, which is 256 + ((i-1) mod 3840) when code `i` is classified. -/
def codeAllowed (i k : Nat) : Prop := if i = 0 then k < 256 else k ≤ 256 + (i - 1) % 3840

/-- Every code of the stream is accepted. -/
def CodesValid (ks : List Nat) : Prop := ∀ i (h : i < ks.length), codeAllowed i ks[i]

/-- `P` lists the patterns that the codes `ks` decode to (R73, R77, R79, R95): a literal is its byte; DEC_SIZE is the
self-referential case; another code of 256 or more is the entry its epoch registered, PREV with the first byte after
it. The code 256 + r of the epoch of code `i` was registered from the patterns at j and j + 1,
j = 3840 * ((i-1) div 3840) + r. -/
def DecodesTo (ks : List Nat) (P : List Pattern) : Prop :=
  P.length = ks.length ∧
    ∀ i (h : i < ks.length),
      P.getD i [] =
        if ks[i] < 256 then [BitVec.ofNat 8 ks[i]]
        else if ks[i] = 256 + (i - 1) % 3840 then P.getD (i - 1) [] ++ firstOf (P.getD (i - 1) [])
        else
          P.getD (3840 * ((i - 1) / 3840) + (ks[i] - 256)) [] ++
            firstOf (P.getD (3840 * ((i - 1) / 3840) + (ks[i] - 256) + 1) [])

/-- The entry that the encoder registers at its miss `j` (R89, R95): P_j with the first byte of P_(j+1). -/
def missEntry (P : List Pattern) (j : Nat) : Pattern := P.getD j [] ++ firstOf (P.getD (j + 1) [])

/-- `P` is the greedy parse of the text `b` and `cs` its codes (R87 to R91, R95): the patterns are not empty and
spell the text; each is a literal with its value as its code, or the entry of an earlier miss `j` of its epoch (the
epoch of emission `i` starts at 3840 * (i div 3840)) with the code 256 + (j mod 3840); and no pattern but the last
could have been longer: it with the next byte is no entry of its epoch yet. -/
def GreedyParse (b : List Byte) (P : List Pattern) (cs : List Nat) : Prop :=
  P.flatten = b ∧ (∀ p ∈ P, p ≠ []) ∧ cs.length = P.length ∧
    (∀ i (h : i < cs.length),
      (∃ c : Byte, P.getD i [] = [c] ∧ cs[i] = c.toNat) ∨
        (∃ j, 3840 * (i / 3840) ≤ j ∧ j < i ∧ P.getD i [] = missEntry P j ∧ cs[i] = 256 + j % 3840)) ∧
    (∀ i, i + 1 < P.length → ∀ j, 3840 * (i / 3840) ≤ j → j < i → missEntry P i ≠ missEntry P j)

/-- `k` steps, stopping at the first fault or refusal. -/
def runSteps : Nat → State → Host.Outcome State Fault Refusal
  | 0, s => .next s
  | k + 1, s =>
    match step s with
    | .next t => runSteps k t
    | .fault r => .fault r
    | .refused r => .refused r

/-- An input that is neither a command issue nor a reset of either kind (R49): what may happen between a completion and
the reads of its results. -/
def quietEvent (p : Params) : Event → Prop
  | .host (.read _) => True
  | .host (.write a w) => target p a ≠ .reg .cmd ∧ (target p a = .reg .ctrl → w.getLsbD 1 = false)
  | .engine => True
  | .rst => False

/-- What a completion leaves for the host to read (R49). -/
def State.SameResults (s t : State) : Prop :=
  (∀ i, t.outElem i = s.outElem i) ∧ t.outLen = s.outLen ∧ t.errIndex = s.errIndex ∧ s.KeepsDict t

end Sys2Proof.Machine
end

