-- ==== Sys2Proof/Certificates/Slice0/Obligations.lean ====
section
/-! DEFINITION. The statements for the provers. Rule numbers are those of spec/. -/

open Sys2Proof Sys2Proof.Machine

/-! ### Command words (30_encoding.md) -/

/-- R54: the words 1 to 5 name the five commands in the table's order. -/
def Obligations.TableWordsDecode : Prop :=
  decodeWord 0x00000001#32 = .ok .unpack ∧ decodeWord 0x00000002#32 = .ok .pack ∧
    decodeWord 0x00000003#32 = .ok .decode ∧ decodeWord 0x00000004#32 = .ok .decodePacked ∧
    decodeWord 0x00000005#32 = .ok .encode

/-- R53, R54: a word decodes to a command exactly when it is that command's one encoding. -/
def Obligations.DecodeAgreesWithEncode : Prop :=
  ∀ (w : Word) (i : Instr), decodeWord w = .ok i ↔ w = encode i

/-- R55: exactly the words with OP = 0, OP in 6 .. 15 or a bit of [31:4] set are refused. -/
def Obligations.IllegalWordsAreRefused : Prop :=
  ∀ w : Word, (∃ e, decodeWord w = .error e) ↔
    (w.extractLsb' 0 4 = 0#4 ∨ 6 ≤ (w.extractLsb' 0 4).toNat ∨ w.extractLsb' 4 28 ≠ 0#28)

/-! ### Issue, engine steps, progress (60_exceptions.md R98 to R101, 70_reset_and_hazards.md R124) -/

/-- R98, R99: what a host write of CMD does, in its three cases, as whole next states. -/
def Obligations.CmdWriteIssues : Prop :=
  ∀ (s : State) (w : Word) (rest : List Event),
    s.pending = .host (.write (regAddr .cmd) w) :: rest →
    (s.engState = .busy → step s = .next { s with pending := rest, response := none, ovr := true }) ∧
    (s.engState = .idle →
      (w.extractLsb' 4 28 ≠ 0#28 ∨ ¬ (1 ≤ (w.extractLsb' 0 4).toNat ∧ (w.extractLsb' 0 4).toNat ≤ 5)) →
      step s = .next { s with
        pending := rest, response := none, err := .illegalCommand, done := true, outLen := 0#32, errIndex := 0#32 }) ∧
    (s.engState = .idle →
      w.extractLsb' 4 28 = 0#28 → 1 ≤ (w.extractLsb' 0 4).toNat → (w.extractLsb' 0 4).toNat ≤ 5 →
      step s = .next { s with
        pending := rest, response := none, latchedOp := w.extractLsb' 0 4, latchedLen := s.inLen, done := false,
        err := .none, engState := .busy })

/-- R100: an overrun sets OVR and nothing else, and a step clears OVR only by a STATUS write with bit [8] = 1 or by a
reset. -/
def Obligations.OverrunIsSticky : Prop :=
  (∀ (s : State) (w : Word) (rest : List Event),
    s.pending = .host (.write (regAddr .cmd) w) :: rest → s.engState = .busy →
    step s = .next { s with pending := rest, response := none, ovr := true }) ∧
  (∀ s t : State, step s = .next t → s.ovr = true → t.ovr = false →
    (∃ a w rest, s.pending = .host (.write a w) :: rest ∧
      (target s.params a = .reg .status ∧ w.getLsbD 8 = true ∨ target s.params a = .reg .ctrl ∧ w.getLsbD 1 = true)) ∨
    (∃ rest, s.pending = .rst :: rest))

/-- R101 in the model's terms: when the engine moves on a BUSY block, the step is exec of the latched command; on an
IDLE block nothing happens. The turn is an input of the model (assumption 3); that an IDLE block with nothing pending
steps to the same state is the model's choice (assumption 16). -/
def Obligations.StepRunsLatchedCommand : Prop :=
  (∀ (s : State) (i : Instr), s.engState = .busy → decodeOp s.latchedOp = .ok i → s.pending = [] →
    step s = exec i s) ∧
  (∀ (s : State) (i : Instr) (rest : List Event), s.engState = .busy → decodeOp s.latchedOp = .ok i →
    s.pending = .engine :: rest → step s = exec i { s with pending := rest }) ∧
  (∀ s : State, s.engState = .idle → s.pending = [] → step s = .next s) ∧
  (∀ (s : State) (rest : List Event), s.engState = .idle → s.pending = .engine :: rest →
    step s = .next { s with pending := rest })

/-- R98 then R101: a command written to CMD on an IDLE block, with the engine to move next, runs on the IN_LEN value
of that moment. -/
def Obligations.IssuedCommandRuns : Prop :=
  ∀ (s : State) (i : Instr) (rest : List Event), s.engState = .idle →
    s.pending = .host (.write (regAddr .cmd) (encode i)) :: .engine :: rest →
    ∃ t, step s = .next t ∧ t.latchedLen = s.inLen ∧ t.engState = .busy ∧ (∀ j, t.inElem j = s.inElem j) ∧
      step t = exec i { t with pending := rest }

/-- The word that withFetchWord places is the instruction that the next step runs (assumption 10). -/
def Obligations.FetchedWordRuns : Prop :=
  ∀ (s : State) (i : Instr),
    ∃ t, step (s.withFetchWord 32 (encode i).toNat) = exec i t ∧ t.latchedLen = s.inLen ∧ t.pending = s.pending ∧
      t.params = s.params ∧ (∀ j, t.inElem j = s.inElem j ∧ t.written j = s.written j)

/-- R124: an accepted command completes, unless a reset cancels it: from every BUSY state of the invariant whose
input can be read, some number of steps, at most one more than the inputs to come, leads to an IDLE block. That the
engine moves when no input is to come is the model's form of weak fairness (assumption 3). -/
def Obligations.AcceptedCommandCompletes : Prop :=
  ∀ s : State, s.Inv → s.engState = .busy →
    (s.params.inDepth < s.latchedLen.toNat ∨ ∀ j, j < s.latchedLen.toNat → s.written j = true) →
    ∃ k t, k ≤ s.pending.length + 1 ∧ runSteps k s = .next t ∧ t.engState = .idle

/-! ### Reset (70_reset_and_hazards.md) -/

/-- R117: the state after reset, for whatever parameters the block was built with. The latches, the draws and the fills
are the model's choice (assumptions 5 and 8) and are not stated. -/
def Obligations.ResetStateValues : Prop :=
  State.reset.regWord .ctrl = 0#32 ∧ State.reset.regWord .status = 0#32 ∧ State.reset.regWord .inLen = 0#32 ∧
    State.reset.regWord .outLen = 0#32 ∧ State.reset.regWord .errIndex = 0#32 ∧
    State.reset.regWord .dictSize = 256#32 ∧ State.reset.regWord .dictResets = 0#32 ∧
    State.reset.regWord .id = 0x4C5A5701#32 ∧ State.reset.irq = false ∧ State.reset.engState = .idle ∧
    (∀ i, State.reset.written i = false)

/-- R117: an assertion of rst sets the whole reset table, in any state, and cancels a running command. -/
def Obligations.HardResetSetsTheTable : Prop :=
  ∀ (s : State) (rest : List Event), s.pending = .rst :: rest →
    ∃ t, step s = .next t ∧ t.pending = rest ∧ t.params = s.params ∧
      t.regWord .id = 0x4C5A5701#32 ∧ (t.regWord .param).extractLsb' 0 4 = 12#4 ∧
      (t.regWord .param).extractLsb' 4 2 = residueBits s.params.residue1 ∧
      (t.regWord .param).extractLsb' 6 26 = 0#26 ∧
      t.regWord .inCap = BitVec.ofNat 32 s.params.inDepth ∧ t.regWord .outCap = BitVec.ofNat 32 s.params.outDepth ∧
      t.regWord .ctrl = 0#32 ∧ t.regWord .status = 0#32 ∧ t.inLen = 0#32 ∧ t.outLen = 0#32 ∧ t.errIndex = 0#32 ∧
      t.dictSize = 256#32 ∧ t.dictResets = 0#32 ∧ t.irq = false ∧ t.engState = .idle ∧ t.done = false ∧
      (∀ i, t.written i = false)

/-- R119: a CTRL write with bit [1] = 1 resets the registers and the engine, sets IRQ_EN from bit [0], keeps IN_BUF
and WRITTEN, and keeps OUT_BUF when no command was running. -/
def Obligations.SoftResetResets : Prop :=
  ∀ (s : State) (w : Word) (rest : List Event),
    s.pending = .host (.write (regAddr .ctrl) w) :: rest → w.getLsbD 1 = true →
    ∃ t, step s = .next t ∧ t.pending = rest ∧ t.params = s.params ∧ t.irqEn = w.getLsbD 0 ∧
      t.regWord .status = 0#32 ∧ t.inLen = 0#32 ∧ t.outLen = 0#32 ∧ t.errIndex = 0#32 ∧ t.dictSize = 256#32 ∧
      t.dictResets = 0#32 ∧ t.engState = .idle ∧ t.ovr = false ∧ t.irq = false ∧
      (∀ i, t.inElem i = s.inElem i ∧ t.written i = s.written i) ∧
      (s.engState = .idle → ∀ i, t.outElem i = s.outElem i)

/-! ### The host port (20_memory.md, 10_state.md) -/

/-- R38: every transaction completes: a Read returns one word, a Write returns nothing. -/
def Obligations.EveryTransactionCompletes : Prop :=
  ∀ (s : State) (x : Transaction) (rest : List Event), s.pending = .host x :: rest →
    ∃ t, step s = .next t ∧ t.pending = rest ∧
      (∀ a, x = .read a → ∃ v : Word, t.response = some v) ∧ (∀ a w, x = .write a w → t.response = none)

/-- R40, R48: a read changes nothing but what the port returns; the model's draw counter moves only while BUSY. -/
def Obligations.ReadsHaveNoSideEffect : Prop :=
  ∀ (s : State) (a : Word) (rest : List Event), s.pending = .host (.read a) :: rest →
    ∃ (v : Word) (d : Nat), step s = .next { s with pending := rest, response := some v, draws := d } ∧
      (s.engState = .idle → d = s.draws)

/-- R39, R40: the address map of the registers: while IDLE a read of each register's address returns its value. The
values are given bit by bit in the statements about each register. -/
def Obligations.RegisterAddressesRead : Prop :=
  ∀ (s : State) (n : Nat) (r : Reg) (rest : List Event), s.engState = .idle →
    (n, r) ∈ [(0x0, Reg.id), (0x1, .param), (0x2, .inCap), (0x3, .outCap), (0x4, .ctrl), (0x5, .cmd), (0x6, .status),
      (0x7, .inLen), (0x8, .outLen), (0x9, .errIndex), (0xA, .dictSize), (0xB, .dictResets)] →
    s.pending = .host (.read (BitVec.ofNat 32 n)) :: rest →
    step s = .next { s with pending := rest, response := some (s.regWord r) }

/-- R9 to R12: ID, PARAM, IN_CAP and OUT_CAP read constants of the built block, always, and ignore writes; no step
changes what they report. -/
def Obligations.IdentificationRegistersAreConstant : Prop :=
  ∀ (s : State) (r : Reg) (rest : List Event), r = .id ∨ r = .param ∨ r = .inCap ∨ r = .outCap →
    (s.pending = .host (.read (regAddr r)) :: rest →
      step s = .next { s with pending := rest, response := some (s.regWord r) }) ∧
    (∀ w, s.pending = .host (.write (regAddr r) w) :: rest →
      step s = .next { s with pending := rest, response := none }) ∧
    s.regWord .id = 0x4C5A5701#32 ∧
    (s.regWord .param).toNat =
      12 + 16 * (match s.params.residue1 with | .fault => 0 | .overlap => 1 | .drop => 2) ∧
    (s.params.wf = true → (s.regWord .inCap).toNat = s.params.inDepth ∧ (s.regWord .outCap).toNat = s.params.outDepth) ∧
    (∀ t, step s = .next t → t.params = s.params)

/-- R21, R39, R40: a reserved, unmapped or beyond-depth address reads 0 and ignores writes. -/
def Obligations.HolesReadZeroAndIgnoreWrites : Prop :=
  ∀ (s : State) (a : Word) (rest : List Event), s.params.wf = true →
    (0x0000000C ≤ a.toNat ∧ a.toNat < 0x01000000 ∨
      0x01000000 + s.params.inDepth ≤ a.toNat ∧ a.toNat < 0x02000000 ∨
      0x02000000 + s.params.outDepth ≤ a.toNat ∧ a.toNat < 0x03000000 ∨ 0x03000000 ≤ a.toNat) →
    (s.pending = .host (.read a) :: rest → step s = .next { s with pending := rest, response := some 0#32 }) ∧
    (∀ w, s.pending = .host (.write a w) :: rest → step s = .next { s with pending := rest, response := none })

/-- R14, R17 to R20, R42: the read-only result registers and OUT_BUF ignore host writes, and CMD reads 0. -/
def Obligations.ReadOnlyTargetsIgnoreWrites : Prop :=
  (∀ (s : State) (a w : Word) (rest : List Event),
    (∃ r, r ∈ [Reg.outLen, .errIndex, .dictSize, .dictResets] ∧ a = regAddr r) ∨
      (s.params.wf = true ∧ ∃ i, i < s.params.outDepth ∧ a = outAddr i) →
    s.pending = .host (.write a w) :: rest → step s = .next { s with pending := rest, response := none }) ∧
  (∀ (s : State) (rest : List Event), s.pending = .host (.read (regAddr .cmd)) :: rest →
    step s = .next { s with pending := rest, response := some 0#32 })

/-- R41: the IN_BUF window: a write while IDLE stores wdata[15:0] and sets WRITTEN, one while BUSY does nothing, and a
read returns the element extended with zeros; the addresses beyond it read 0 and ignore writes. -/
def Obligations.InBufWindow : Prop :=
  ∀ (s : State) (i : Nat) (w : Word) (rest : List Event), s.params.wf = true → i < s.params.inDepth →
    (s.pending = .host (.write (inAddr i) w) :: rest → s.engState = .idle →
      ∃ t, step s = .next t ∧ t = { s with pending := rest, response := none, inBuf := t.inBuf } ∧
        t.inElem i = w.extractLsb' 0 16 ∧ t.written i = true ∧
        (∀ j, j ≠ i → t.inElem j = s.inElem j ∧ t.written j = s.written j)) ∧
    (s.pending = .host (.write (inAddr i) w) :: rest → s.engState = .busy →
      step s = .next { s with pending := rest, response := none }) ∧
    (s.pending = .host (.read (inAddr i)) :: rest →
      step s = .next { s with pending := rest, response := some ((s.inElem i).setWidth 32) }) ∧
    (∀ a : Word, 0x01000000 + s.params.inDepth ≤ a.toNat → a.toNat ≤ 0x01FFFFFF →
      (s.pending = .host (.read a) :: rest → step s = .next { s with pending := rest, response := some 0#32 }) ∧
      (s.pending = .host (.write a w) :: rest → step s = .next { s with pending := rest, response := none }))

/-- R42: while IDLE a read of the OUT_BUF window returns the element extended with zeros; host writes have no effect;
the addresses beyond it read 0 and ignore writes. -/
def Obligations.OutBufWindowReads : Prop :=
  ∀ (s : State) (i : Nat) (w : Word) (rest : List Event), s.params.wf = true → i < s.params.outDepth →
    (s.engState = .idle → s.pending = .host (.read (outAddr i)) :: rest →
      step s = .next { s with pending := rest, response := some ((s.outElem i).setWidth 32) }) ∧
    (s.pending = .host (.write (outAddr i) w) :: rest → step s = .next { s with pending := rest, response := none }) ∧
    (∀ a : Word, 0x02000000 + s.params.outDepth ≤ a.toNat → a.toNat ≤ 0x02FFFFFF →
      (s.pending = .host (.read a) :: rest → step s = .next { s with pending := rest, response := some 0#32 }) ∧
      (s.pending = .host (.write a w) :: rest → step s = .next { s with pending := rest, response := none }))

/-- R51: while BUSY a read of a result register or of OUT_BUF returns the next free draw, whatever the state holds,
and takes that draw; a read of any other register or of IN_BUF is exact. That the value is a constant of Config
applied to the draw counter is the model's form of "unspecified" (assumption 5). -/
def Obligations.BusyReads : Prop :=
  ∀ (s : State) (rest : List Event), s.params.wf = true → s.engState = .busy →
    (∀ r, r ∈ [Reg.outLen, .errIndex, .dictSize, .dictResets] → s.pending = .host (.read (regAddr r)) :: rest →
      step s = .next { s with
        pending := rest, response := some (Config.freeBusyWord s.draws), draws := s.draws + 1 }) ∧
    (∀ i, i < s.params.outDepth → s.pending = .host (.read (outAddr i)) :: rest →
      step s = .next { s with
        pending := rest, response := some ((Config.freeBusyElem s.draws).setWidth 32), draws := s.draws + 1 }) ∧
    (∀ r, r ∈ [Reg.id, .param, .inCap, .outCap, .ctrl, .status, .inLen] →
      s.pending = .host (.read (regAddr r)) :: rest →
      step s = .next { s with pending := rest, response := some (s.regWord r) }) ∧
    (∀ i, i < s.params.inDepth → s.pending = .host (.read (inAddr i)) :: rest →
      step s = .next { s with pending := rest, response := some ((s.inElem i).setWidth 32) })

/-- R15, R97: what STATUS reads, bit by bit, and what a STATUS write clears. -/
def Obligations.StatusBits : Prop :=
  ∀ (s : State) (w : Word) (rest : List Event),
    (s.pending = .host (.read (regAddr .status)) :: rest →
      ∃ v : Word, step s = .next { s with pending := rest, response := some v } ∧
        (v.getLsbD 0 = true ↔ s.engState = .busy) ∧ v.getLsbD 1 = s.done ∧ v.extractLsb' 2 2 = 0#2 ∧
        (v.extractLsb' 4 4).toNat =
          (match s.err with
            | .none => 0
            | .invalidCode => 1
            | .illegalCommand => 2
            | .length => 3
            | .framing => 4
            | .elementRange => 5
            | .outputOverflow => 6) ∧
        v.getLsbD 8 = s.ovr ∧ v.extractLsb' 9 23 = 0#23) ∧
    (s.pending = .host (.write (regAddr .status) w) :: rest →
      step s = .next { s with
        pending := rest
        response := none
        done := if w.getLsbD 1 then false else s.done
        err := if w.getLsbD 1 then .none else s.err
        ovr := if w.getLsbD 8 then false else s.ovr })

/-- R13: CTRL reads IRQ_EN at bit [0] and 0 above; a write stores bit [0], after the soft reset when bit [1] is set,
and is accepted while BUSY. -/
def Obligations.CtrlRegister : Prop :=
  ∀ (s : State) (w : Word) (rest : List Event),
    (s.pending = .host (.read (regAddr .ctrl)) :: rest →
      step s = .next { s with pending := rest, response := some (if s.irqEn then 1#32 else 0#32) }) ∧
    (s.pending = .host (.write (regAddr .ctrl) w) :: rest → w.getLsbD 1 = false →
      step s = .next { s with pending := rest, response := none, irqEn := w.getLsbD 0 }) ∧
    (s.pending = .host (.write (regAddr .ctrl) w) :: rest → w.getLsbD 1 = true →
      ∃ t, step s = .next t ∧ t.irqEn = w.getLsbD 0 ∧ t.engState = .idle ∧ t.done = false)

/-- R16: IN_LEN stores any 32-bit value while IDLE, ignores writes while BUSY, is latched at acceptance, and no command
changes it. -/
def Obligations.InLenRegister : Prop :=
  ∀ (s : State) (w : Word) (rest : List Event),
    (s.pending = .host (.write (regAddr .inLen) w) :: rest → s.engState = .idle →
      step s = .next { s with pending := rest, response := none, inLen := w }) ∧
    (s.pending = .host (.write (regAddr .inLen) w) :: rest → s.engState = .busy →
      step s = .next { s with pending := rest, response := none }) ∧
    (s.pending = .host (.read (regAddr .inLen)) :: rest →
      step s = .next { s with pending := rest, response := some s.inLen }) ∧
    (∀ i, s.pending = .host (.write (regAddr .cmd) (encode i)) :: rest → s.engState = .idle →
      ∃ t, step s = .next t ∧ t.latchedLen = s.inLen ∧ t.inLen = s.inLen) ∧
    (∀ i t, exec i s = .next t → t.inLen = s.inLen)

/-- R50: while BUSY no host transaction changes IN_BUF or IN_LEN, a CMD write sets OVR and nothing else, and writes of
CTRL and STATUS take effect. -/
def Obligations.InputLockedWhileBusy : Prop :=
  ∀ (s t : State) (x : Transaction) (rest : List Event), s.engState = .busy → s.pending = .host x :: rest →
    step s = .next t →
    (∀ i, t.inElem i = s.inElem i ∧ t.written i = s.written i) ∧
    (t.engState = .busy → t.inLen = s.inLen ∧ t.latchedLen = s.latchedLen ∧ t.latchedOp = s.latchedOp) ∧
    (∀ w, x = .write (regAddr .inLen) w → t = { s with pending := rest, response := none }) ∧
    (∀ w, x = .write (regAddr .cmd) w → t = { s with pending := rest, response := none, ovr := true }) ∧
    (∀ w, x = .write (regAddr .ctrl) w →
      t.irqEn = w.getLsbD 0 ∧ (w.getLsbD 1 = true → t.engState = .idle) ∧
        (w.getLsbD 1 = false → t.engState = .busy)) ∧
    (∀ w, x = .write (regAddr .status) w →
      (w.getLsbD 1 = true → t.done = false ∧ t.err = .none) ∧ (w.getLsbD 8 = true → t.ovr = false))

/-- R49: the DONE handshake: from an IDLE block, whatever quiet inputs follow, the results a completion left stay, and
so does the block's being IDLE. -/
def Obligations.ResultsStayUntilNextCommand : Prop :=
  ∀ (k : Nat) (s t : State), s.engState = .idle →
    (∀ e ∈ s.pending, quietEvent s.params e) → runSteps k s = .next t →
    t.engState = .idle ∧ s.SameResults t

/-- R22, R112: irq is IRQ_EN and DONE. It is raised only by a completion (an engine step, or a refused CMD write) or by a CTRL write that
sets IRQ_EN while DONE = 1, and lowered only by a STATUS write with bit [1] = 1, an acceptance, a CTRL write or a
reset. -/
def Obligations.InterruptLineCauses : Prop :=
  ∀ s t : State, s.irq = (s.irqEn && s.done) ∧
    (step s = .next t → s.irq = false → t.irq = true →
      (s.engState = .busy ∧ t.engState = .idle ∧ s.irqEn = true) ∨
      (∃ w rest, s.pending = .host (.write (regAddr .cmd) w) :: rest ∧ s.engState = .idle ∧
        t.err = .illegalCommand ∧ s.irqEn = true) ∨
      (∃ w rest, s.pending = .host (.write (regAddr .ctrl) w) :: rest ∧ w.getLsbD 0 = true ∧ s.done = true)) ∧
    (step s = .next t → s.irq = true → t.irq = false →
      (∃ w rest, s.pending = .host (.write (regAddr .status) w) :: rest ∧ w.getLsbD 1 = true) ∨
      (∃ w rest, s.pending = .host (.write (regAddr .cmd) w) :: rest ∧ t.engState = .busy) ∨
      (∃ w rest, s.pending = .host (.write (regAddr .ctrl) w) :: rest ∧
        (w.getLsbD 0 = false ∨ w.getLsbD 1 = true)) ∨
      (∃ rest, s.pending = .rst :: rest))

/-- R63, R110: the host's acknowledgement line clears DONE, ERR and OVR and nothing else, so irq falls. -/
def Obligations.AckClearsStatus : Prop :=
  ∀ (s : State) (rest : List Event), s.pending = .host ackLine.transaction :: rest →
    ∃ t, step s = .next t ∧ t = { s with pending := rest, response := none, done := false, err := .none, ovr := false } ∧
      t.irq = false

/-! ### The invariant (10_state.md R24, R25, R32) -/

/-- The invariant holds at reset, for whatever parameters the block was built with. -/
def Obligations.ResetMeetsInvariant : Prop := State.reset.Inv

/-- Every step keeps the invariant: buffers canonical and inside their depths, counters inside their bounds, BUSY only
with a command, ERR only with DONE. -/
def Obligations.StepKeepsInvariant : Prop :=
  ∀ s t : State, s.Inv → step s = .next t → t.Inv

/-! ### What every command does (60_exceptions.md R101 to R109) -/

/-- R101, R103, R124: an engine step on an input that can be read always completes. -/
def Obligations.EveryCommandCompletes : Prop :=
  ∀ (i : Instr) (s : State),
    (s.params.inDepth < s.latchedLen.toNat ∨ ∀ j, j < s.latchedLen.toNat → s.written j = true) →
    ∃ t, exec i s = .next t ∧ t.done = true ∧ t.engState = .idle

/-- R43, U1: a command stops, with the model fault UnwrittenInput at the lowest unwritten index, exactly when its length
fits and some element of its input is unwritten; it never refuses. -/
def Obligations.UnwrittenInputFaults : Prop :=
  ∀ (i : Instr) (s : State),
    (∀ f, exec i s = .fault f ↔
      ∃ j, f = .unwrittenInput j ∧ s.latchedLen.toNat ≤ s.params.inDepth ∧ j < s.latchedLen.toNat ∧
        s.written j = false ∧ ∀ j', j' < j → s.written j' = true) ∧
    (∀ r, exec i s ≠ .refused r)

/-- R103: what no command changes, whether it ends with success or with an error. -/
def Obligations.CommandsKeepTheFrame : Prop :=
  ∀ (i : Instr) (s t : State), exec i s = .next t → s.CommandFrame t

/-- R72: PACK and UNPACK leave DICT_SIZE and DICT_RESETS as they were. -/
def Obligations.PackerKeepsDictRegisters : Prop :=
  ∀ s t : State, (exec .pack s = .next t ∨ exec .unpack s = .next t) → s.KeepsDict t

/-- R103, R44: on success ERR_INDEX is 0, and every OUT_BUF element from OUT_LEN on keeps its content. -/
def Obligations.SuccessKeepsOutputAbove : Prop :=
  ∀ (i : Instr) (s t : State), s.params.wf = true → exec i s = .next t → t.err = .none →
    t.errIndex = 0#32 ∧ t.outLen.toNat ≤ s.params.outDepth ∧ ∀ j, t.outLen.toNat ≤ j → t.outElem j = s.outElem j

/-- R103, U3: on an error OUT_LEN is 0 and every OUT_BUF element holds the new free value of that completion
(assumption 5). -/
def Obligations.ErrorOffersNoOutput : Prop :=
  ∀ (i : Instr) (s t : State), exec i s = .next t → t.err ≠ .none →
    t.outLen = 0#32 ∧ ∀ j, t.outElem j = Config.freeOutElem s.draws j

/-- R107: LENGTH is raised by every command exactly when LATCHED_LEN > IN_DEPTH, before any input is read, with
ERR_INDEX 0. -/
def Obligations.LengthError : Prop :=
  ∀ (i : Instr) (s : State),
    (s.params.inDepth < s.latchedLen.toNat →
      ∃ t, exec i s = .next t ∧ t.Failed .length 0 ∧ s.FreshReadback i t) ∧
    (∀ t, exec i s = .next t → t.err = .length → s.params.inDepth < s.latchedLen.toNat)

/-- R108: FRAMING is raised exactly by UNPACK and DECODE_PACKED, exactly when UNPACK_RESIDUE1 = FAULT, n >= 4 and n mod
3 = 1, with ERR_INDEX n-1, and before any element check (R102). -/
def Obligations.FramingError : Prop :=
  ∀ (s : State) (x : List Elem), s.HasInput x →
    (∀ i, i = .unpack ∨ i = .decodePacked → framingBad s.params x.length →
      ∃ t, exec i s = .next t ∧ t.Failed .framing (x.length - 1) ∧ s.FreshReadback i t) ∧
    (∀ i t, exec i s = .next t → t.err = .framing →
      (i = .unpack ∨ i = .decodePacked) ∧ framingBad s.params x.length)

/-- R109: ELEMENT_RANGE is raised at the lowest index out of range for the command's input kind, never by DECODE, and
never when every element is in range. -/
def Obligations.ElementRangeError : Prop :=
  ∀ (s : State) (x : List Elem), s.HasInput x →
    (∀ i (j : Nat) (h : j < x.length),
      ((i = .unpack ∨ i = .decodePacked) ∧ ¬ framingBad s.params x.length ∨ i = .encode) →
      0x100 ≤ x[j].toNat → (∀ k (hk : k < x.length), k < j → x[k].toNat < 0x100) →
      ∃ t, exec i s = .next t ∧ t.Failed .elementRange j ∧ s.FreshReadback i t) ∧
    (∀ (j : Nat) (h : j < x.length), 0x1000 ≤ x[j].toNat →
      (∀ k (hk : k < x.length), k < j → x[k].toNat < 0x1000) →
      ∃ t, exec .pack s = .next t ∧ t.Failed .elementRange j ∧ s.KeepsDict t) ∧
    (∀ i t, exec i s = .next t → t.err = .elementRange →
      (i = .pack ∧ ∃ e ∈ x, 0x1000 ≤ e.toNat) ∨
        ((i = .unpack ∨ i = .decodePacked ∨ i = .encode) ∧ ∃ e ∈ x, 0x100 ≤ e.toNat))

/-- R26, R43, R56: what a command reports and offers depends on its input and the parameters only: not on IN_BUF from
LATCHED_LEN on, nor on anything an earlier command left. -/
def Obligations.ResultDependsOnlyOnInput : Prop :=
  ∀ (i : Instr) (s s' t : State) (x : List Elem), s.params.wf = true → s'.params = s.params → s.HasInput x →
    s'.HasInput x → exec i s = .next t →
    ∃ t', exec i s' = .next t' ∧ t'.err = t.err ∧ t'.errIndex = t.errIndex ∧ t'.outLen = t.outLen ∧
      (∀ j, j < t.outLen.toNat → t'.outElem j = t.outElem j) ∧
      (usesDict i = true → t'.dictSize = t.dictSize ∧ t'.dictResets = t.dictResets)

/-! ### UNPACK and PACK (40_bitpacker.md) -/

/-- R65: First and Second, as fields and in shift and mask form. -/
def Obligations.ExtractionIsShiftAndMask : Prop :=
  ∀ p q : Byte,
    first p q = p ++ q.extractLsb' 4 4 ∧ second p q = p.extractLsb' 0 4 ++ q ∧
    first p q = (p.setWidth 12 <<< 4) ||| (q.setWidth 12 >>> 4) ∧
    second p q = ((p.setWidth 12 &&& 0xF#12) <<< 8) ||| q.setWidth 12

/-- R64, R58, R59: on bytes that raise no framing error and whose codes fit, UNPACK completes and its output is the
groups' codes, then the tail's. -/
def Obligations.UnpackOutput : Prop :=
  ∀ (s : State) (b : List Byte), s.params.wf = true → s.HasInput (b.map byteElem) →
    ¬ framingBad s.params b.length → unpackCount s.params.residue1 b.length ≤ s.params.outDepth →
    ∃ t y, exec .unpack s = .next t ∧ t.Succeeded y ∧ s.KeepsDict t ∧
      y.length = unpackCount s.params.residue1 b.length ∧
      (∀ j, j < b.length / 3 →
        y.getD (2 * j) 0#16 = codeElem (first (b.getD (3 * j) 0#8) (b.getD (3 * j + 1) 0#8)) ∧
        y.getD (2 * j + 1) 0#16 = codeElem (second (b.getD (3 * j + 1) 0#8) (b.getD (3 * j + 2) 0#8))) ∧
      (2 * (b.length / 3) < y.length →
        y.getD (2 * (b.length / 3)) 0#16 =
          codeElem (second (b.getD (b.length - 2) 0#8) (b.getD (b.length - 1) 0#8)))

/-- R66: the number of codes UNPACK gives, and that it is at most the number of bytes. -/
def Obligations.UnpackOutputCount : Prop :=
  ∀ (r : Residue1) (b : List Byte),
    (2 ≤ b.length → (unpackCodes r b).length =
      2 * (b.length / 3) + (if b.length % 3 = 2 then 1 else 0) +
        (if b.length % 3 = 1 ∧ r = .overlap then 1 else 0)) ∧
    (b.length < 2 → (unpackCodes r b).length = 0) ∧
    (2 ≤ b.length → (unpackCodes r b).length ≤ b.length)

/-- R104, R106: UNPACK whose codes do not fit fails with OUTPUT_OVERFLOW at the cursor of the first code that does
not: 3j for code 2j, 3j+1 for code 2j+1, n-2 for the tail code. -/
def Obligations.UnpackOverflow : Prop :=
  ∀ (s : State) (b : List Byte), s.params.wf = true → s.HasInput (b.map byteElem) →
    ¬ framingBad s.params b.length → s.params.outDepth < unpackCount s.params.residue1 b.length →
    ∃ t, exec .unpack s = .next t ∧ s.KeepsDict t ∧
      t.Failed .outputOverflow
        (if s.params.outDepth < 2 * (b.length / 3) then 3 * (s.params.outDepth / 2) + s.params.outDepth % 2
          else b.length - 2)

/-- R68, R58, R59, R70: on codes whose bytes fit, PACK completes and its output is three bytes a pair, and for a last
odd code two bytes with a zero pad nibble. -/
def Obligations.PackOutput : Prop :=
  ∀ (s : State) (c : List Code), s.params.wf = true → s.HasInput (c.map codeElem) →
    packCount c.length ≤ s.params.outDepth →
    ∃ (t : State) (y : List Byte), exec .pack s = .next t ∧ t.Succeeded (y.map byteElem) ∧ s.KeepsDict t ∧ y.length = packCount c.length ∧
      (∀ j, j < c.length / 2 →
        y.getD (3 * j) 0#8 = (c.getD (2 * j) 0#12).extractLsb' 4 8 ∧
        (y.getD (3 * j + 1) 0#8).extractLsb' 4 4 = (c.getD (2 * j) 0#12).extractLsb' 0 4 ∧
        (y.getD (3 * j + 1) 0#8).extractLsb' 0 4 = (c.getD (2 * j + 1) 0#12).extractLsb' 8 4 ∧
        y.getD (3 * j + 2) 0#8 = (c.getD (2 * j + 1) 0#12).extractLsb' 0 8) ∧
      (c.length % 2 = 1 →
        (y.getD (y.length - 2) 0#8).extractLsb' 4 4 = 0#4 ∧
        (y.getD (y.length - 2) 0#8).extractLsb' 0 4 = (c.getD (c.length - 1) 0#12).extractLsb' 8 4 ∧
        y.getD (y.length - 1) 0#8 = (c.getD (c.length - 1) 0#12).extractLsb' 0 8)

/-- R69: the number of bytes PACK gives. -/
def Obligations.PackOutputCount : Prop :=
  ∀ c : List Code,
    (packBytes c).length = 3 * (c.length / 2) + 2 * (c.length % 2) ∧ (packBytes c).length ≤ 2 * c.length ∧
      (c.length % 2 = 0 → (packBytes c).length = 3 * c.length / 2)

/-- R104, R106: PACK whose bytes do not fit fails with OUTPUT_OVERFLOW at 2j for group j, n-1 for the tail group. -/
def Obligations.PackOverflow : Prop :=
  ∀ (s : State) (c : List Code), s.params.wf = true → s.HasInput (c.map codeElem) →
    s.params.outDepth < packCount c.length →
    ∃ t, exec .pack s = .next t ∧ s.KeepsDict t ∧
      t.Failed .outputOverflow
        (if s.params.outDepth < 3 * (c.length / 2) then 2 * (s.params.outDepth / 3) else c.length - 1)

/-- R71: the three laws of packing and unpacking, under every UNPACK_RESIDUE1. -/
def Obligations.PackingIsInvertible : Prop :=
  ∀ r : Residue1,
    (∀ c : List Code, unpackCodes r (packBytes c) = c) ∧
    (∀ b : List Byte, b.length % 3 = 0 → packBytes (unpackCodes r b) = b) ∧
    (∀ b : List Byte, b.length % 3 = 2 →
      packBytes (unpackCodes r b) = b.set (b.length - 2) (b.getD (b.length - 2) 0#8 &&& 0x0F#8))

/-! ### DECODE and DECODE_PACKED (41_decode.md) -/

/-- R74: DECODE of no codes succeeds with empty output and a fresh dictionary's readbacks. -/
def Obligations.DecodeOfNothing : Prop :=
  ∀ s : State, s.latchedLen = 0#32 →
    ∃ t, exec .decode s = .next t ∧ t.Succeeded [] ∧ t.ShowsDict 256 0 ∧ ∀ j, t.outElem j = s.outElem j

/-- R73, R75 to R80, R83: DECODE of a stream of accepted codes whose patterns fit completes; its output is the
patterns, which the stream determines; and the readbacks follow the counting law. -/
def Obligations.DecodeOutput : Prop :=
  ∀ (s : State) (x : List Elem), s.params.wf = true → s.HasInput x → CodesValid (x.map (·.toNat)) →
    (∃ P, DecodesTo (x.map (·.toNat)) P) ∧
    ∀ P, DecodesTo (x.map (·.toNat)) P → P.flatten.length ≤ s.params.outDepth →
      ∃ t, exec .decode s = .next t ∧ t.Succeeded (P.flatten.map byteElem) ∧
        t.ShowsDict (256 + (x.length - 1) - 3840 * ((x.length - 2) / 3840)) ((x.length - 2) / 3840)

/-- R75, R77, R83, R105: DECODE fails with INVALID_CODE at the first code that is not accepted, when the patterns
before it fit; the readbacks include the reset for that code and no registration for it. R84, R85: so does
DECODE_PACKED on bytes that raise no framing error, with cursors into the unpacked codes, however many they are. -/
def Obligations.DecodeInvalidCode : Prop :=
  (∀ (s : State) (x : List Elem) (i : Nat) (h : i < x.length) (P : List Pattern), s.params.wf = true →
    s.HasInput x →
    ¬ codeAllowed i x[i].toNat → CodesValid ((x.take i).map (·.toNat)) → DecodesTo ((x.take i).map (·.toNat)) P →
    P.flatten.length ≤ s.params.outDepth →
    ∃ t, exec .decode s = .next t ∧ t.Failed .invalidCode i ∧
      t.ShowsDict (256 + (i - 1) - 3840 * ((i - 1) / 3840)) ((i - 1) / 3840)) ∧
  (∀ (s : State) (b : List Byte) (q : List Code) (i : Nat) (h : i < q.length) (P : List Pattern),
    s.params.wf = true → s.HasInput (b.map byteElem) → ¬ framingBad s.params b.length →
    q = unpackCodes s.params.residue1 b →
    ¬ codeAllowed i q[i].toNat → CodesValid ((q.take i).map (·.toNat)) → DecodesTo ((q.take i).map (·.toNat)) P →
    P.flatten.length ≤ s.params.outDepth →
    ∃ t, exec .decodePacked s = .next t ∧ t.Failed .invalidCode i ∧
      t.ShowsDict (256 + (i - 1) - 3840 * ((i - 1) / 3840)) ((i - 1) / 3840))

/-- R78, R81, R83, R104, R106: DECODE fails with OUTPUT_OVERFLOW at the code whose pattern does not fit in the rest of
OUT_BUF, all codes up to it being accepted. R84, R85: so does DECODE_PACKED on bytes that raise no framing error, with
cursors into the unpacked codes, however many they are. -/
def Obligations.DecodeOverflow : Prop :=
  (∀ (s : State) (x : List Elem) (i : Nat) (P : List Pattern), s.params.wf = true → s.HasInput x → i < x.length →
    CodesValid ((x.take (i + 1)).map (·.toNat)) → DecodesTo ((x.take (i + 1)).map (·.toNat)) P →
    (P.take i).flatten.length ≤ s.params.outDepth → s.params.outDepth < P.flatten.length →
    ∃ t, exec .decode s = .next t ∧ t.Failed .outputOverflow i ∧
      t.ShowsDict (256 + (i - 1) - 3840 * ((i - 1) / 3840)) ((i - 1) / 3840)) ∧
  (∀ (s : State) (b : List Byte) (q : List Code) (i : Nat) (P : List Pattern), s.params.wf = true →
    s.HasInput (b.map byteElem) → ¬ framingBad s.params b.length → q = unpackCodes s.params.residue1 b →
    i < q.length →
    CodesValid ((q.take (i + 1)).map (·.toNat)) → DecodesTo ((q.take (i + 1)).map (·.toNat)) P →
    (P.take i).flatten.length ≤ s.params.outDepth → s.params.outDepth < P.flatten.length →
    ∃ t, exec .decodePacked s = .next t ∧ t.Failed .outputOverflow i ∧
      t.ShowsDict (256 + (i - 1) - 3840 * ((i - 1) / 3840)) ((i - 1) / 3840))

/-- R84: DECODE_PACKED of bytes whose unpacked codes are accepted and fit completes with their patterns. -/
def Obligations.DecodePackedOutput : Prop :=
  ∀ (s : State) (b : List Byte) (P : List Pattern), s.params.wf = true → s.HasInput (b.map byteElem) →
    ¬ framingBad s.params b.length →
    CodesValid ((unpackCodes s.params.residue1 b).map (·.toNat)) →
    DecodesTo ((unpackCodes s.params.residue1 b).map (·.toNat)) P → P.flatten.length ≤ s.params.outDepth →
    ∃ t, exec .decodePacked s = .next t ∧ t.Succeeded (P.flatten.map byteElem) ∧
      t.ShowsDict
        (256 + (unpackCount s.params.residue1 b.length - 1) -
          3840 * ((unpackCount s.params.residue1 b.length - 2) / 3840))
        ((unpackCount s.params.residue1 b.length - 2) / 3840)

/-- R86: DECODE_PACKED reports and offers what UNPACK, a copy of its output, and DECODE do. -/
def Obligations.DecodePackedIsUnpackThenDecode : Prop :=
  ∀ (s u s' : State) (x y : List Elem), s.params.wf = true → s.HasInput x →
    exec .unpack s = .next u → u.Succeeded y → s'.params = s.params → s'.HasInput y →
    ∃ t t', exec .decodePacked s = .next t ∧ exec .decode s' = .next t' ∧
      t.err = t'.err ∧ t.errIndex = t'.errIndex ∧ t.outLen = t'.outLen ∧
      t.dictSize = t'.dictSize ∧ t.dictResets = t'.dictResets ∧
      ∀ j, j < t.outLen.toNat → t.outElem j = t'.outElem j

/-- R32, R81: after a DECODE or DECODE_PACKED that completes, DICT_SIZE is in 256 .. 4096. -/
def Obligations.DecodeDictSizeRange : Prop :=
  ∀ (i : Instr) (s t : State), i = .decode ∨ i = .decodePacked → exec i s = .next t →
    256 ≤ t.dictSize.toNat ∧ t.dictSize.toNat ≤ 4096

/-! ### ENCODE (42_encode.md) -/

/-- R87 to R93: every text has a greedy parse, and ENCODE whose codes fit completes with exactly the codes of that
parse and the readbacks of its misses; codes always fit, so ENCODE always succeeds, when OUT_DEPTH >= n (R92). -/
def Obligations.EncodeOutput : Prop :=
  ∀ (s : State) (b : List Byte), s.params.wf = true → s.HasInput (b.map byteElem) →
    (∃ P cs, GreedyParse b P cs) ∧
    (∀ P cs, GreedyParse b P cs → cs.length ≤ s.params.outDepth →
      ∃ t, exec .encode s = .next t ∧ t.Succeeded (cs.map (BitVec.ofNat 16)) ∧
        t.ShowsDict (256 + (cs.length - 1) % 3840) ((cs.length - 1) / 3840)) ∧
    (b.length ≤ s.params.outDepth → ∃ t y, exec .encode s = .next t ∧ t.Succeeded y)

/-- R94: bounds on the output of a successful ENCODE of n bytes with m codes, and its counting laws. -/
def Obligations.EncodeOutputBounds : Prop :=
  ∀ (s t : State) (b : List Byte) (y : List Elem), s.params.wf = true → s.HasInput (b.map byteElem) →
    exec .encode s = .next t → t.Succeeded y →
    (y.length = 0 ↔ b.length = 0) ∧ y.length ≤ b.length ∧ (∀ e ∈ y, e.toNat ≤ 4094) ∧
      t.ShowsDict (256 + (y.length - 1) - 3840 * ((y.length - 1) / 3840)) ((y.length - 1) / 3840)

/-- R89, R91, R93, R104, R106: ENCODE whose codes do not fit fails with OUTPUT_OVERFLOW at the byte where the miss of
the first code that does not fit is found, which is where its pattern ends (n for the flush). -/
def Obligations.EncodeOverflow : Prop :=
  ∀ (s : State) (b : List Byte) (P : List Pattern) (cs : List Nat), s.params.wf = true →
    s.HasInput (b.map byteElem) → GreedyParse b P cs → s.params.outDepth < cs.length →
    ∃ t, exec .encode s = .next t ∧
      t.Failed .outputOverflow (P.take (s.params.outDepth + 1)).flatten.length ∧
      t.ShowsDict (256 + s.params.outDepth % 3840) (s.params.outDepth / 3840)

/-- R93: after an ENCODE that completes, with or without error, DICT_SIZE is in 256 .. 4095. -/
def Obligations.EncodeDictSizeRange : Prop :=
  ∀ s t : State, exec .encode s = .next t → 256 ≤ t.dictSize.toNat ∧ t.dictSize.toNat ≤ 4095

/-- R95: the round trip: DECODE of the codes that ENCODE gives outputs the text, and so does DECODE_PACKED of the
bytes that PACK gives for those codes. -/
def Obligations.EncodeDecodeRoundTrip : Prop :=
  ∀ (s t : State) (b : List Byte) (y : List Elem), s.params.wf = true → s.HasInput (b.map byteElem) →
    exec .encode s = .next t → t.Succeeded y →
    (∀ s', s'.params.wf = true → s'.HasInput y → b.length ≤ s'.params.outDepth →
      ∃ t', exec .decode s' = .next t' ∧ t'.Succeeded (b.map byteElem)) ∧
    (∀ (p u s' : State) (z : List Elem), p.params.wf = true → p.HasInput y → exec .pack p = .next u →
      u.Succeeded z → s'.params.wf = true → s'.HasInput z → b.length ≤ s'.params.outDepth →
      ∃ t', exec .decodePacked s' = .next t' ∧ t'.Succeeded (b.map byteElem))
end

