-- ==== Sys2Proof/Laws/Memory.lean ====
section
/-! SUPPORT. The laws of buffers: a write is read back and leaves every other element alone, every operation keeps
the canonical form, and what reading a command's input answers. -/

namespace Sys2Proof.Machine

/-! ### write -/

@[simp] theorem Memory.read?_nil (i : Nat) : Memory.read? [] i = none := rfl

theorem Memory.read?_cons (a : Nat) (x : Elem) (m : Memory) (i : Nat) :
    Memory.read? ((a, x) :: m) i = if i = a then some x else m.read? i := by
  unfold Memory.read?
  rw [List.lookup_cons]
  by_cases h : i = a
  · simp [h]
  · simp [h, beq_false_of_ne h]

/-- An element below every listed index is not listed. -/
theorem Memory.read?_eq_none_of_lt {m : Memory} {i : Nat} (h : ∀ c ∈ m, i < c.1) : m.read? i = none := by
  induction m with
  | nil => rfl
  | cons c m ih =>
    obtain ⟨a, x⟩ := c
    have ha := h (a, x) (by simp)
    rw [Memory.read?_cons, if_neg (by simp at ha; omega)]
    exact ih (fun c hc => h c (by simp [hc]))

theorem Memory.read?_write (m : Memory) (i j : Nat) (v : Elem) :
    (m.write i v).read? j = if j = i then some v else m.read? j := by
  induction m with
  | nil => simp [Memory.write, Memory.read?_cons]
  | cons c m ih =>
    obtain ⟨a, x⟩ := c
    unfold Memory.write
    split
    · simp [Memory.read?_cons]
    · split
      · next h => subst h; simp only [Memory.read?_cons]; split <;> rfl
      · rw [Memory.read?_cons, Memory.read?_cons, ih]
        grind

/-- A write is read back. -/
@[simp] theorem Memory.read?_write_self (m : Memory) (i : Nat) (v : Elem) : (m.write i v).read? i = some v := by
  simp [Memory.read?_write]

/-- A write leaves every other element alone. -/
theorem Memory.read?_write_ne (m : Memory) {i j : Nat} (v : Elem) (h : j ≠ i) :
    (m.write i v).read? j = m.read? j := by
  simp [Memory.read?_write, h]

theorem Memory.mem_write {m : Memory} {i : Nat} {v : Elem} {c : Nat × Elem} (h : c ∈ m.write i v) :
    c = (i, v) ∨ c ∈ m := by
  induction m with
  | nil => simpa [Memory.write] using h
  | cons d m ih =>
    obtain ⟨a, x⟩ := d
    unfold Memory.write at h
    grind

/-- A write keeps the canonical form. -/
theorem Memory.wf_write {m : Memory} (h : m.wf) (i : Nat) (v : Elem) : (m.write i v).wf := by
  induction m with
  | nil => simp [Memory.write, Memory.wf]
  | cons c m ih =>
    obtain ⟨a, x⟩ := c
    simp only [Memory.wf, List.pairwise_cons] at h ih ⊢
    unfold Memory.write
    split
    · next hlt =>
      simp only [List.pairwise_cons]
      refine ⟨?_, h⟩
      intro d hd
      rcases List.mem_cons.mp hd with rfl | hd
      · exact hlt
      · exact lt_trans hlt (h.1 d hd)
    · split
      · next hne heq => subst heq; exact List.pairwise_cons.mpr ⟨h.1, h.2⟩
      · refine List.pairwise_cons.mpr ⟨?_, ih h.2⟩
        intro d hd
        rcases Memory.mem_write hd with rfl | hd
        · simp only; omega
        · exact h.1 d hd

/-- A write below a bound keeps every index below it. -/
theorem Memory.lt_write {m : Memory} {n i : Nat} (h : ∀ c ∈ m, c.1 < n) (hi : i < n) (v : Elem) :
    ∀ c ∈ m.write i v, c.1 < n := by
  intro c hc
  rcases Memory.mem_write hc with rfl | hc
  · exact hi
  · exact h c hc

/-! ### writeFrom -/

theorem Memory.read?_writeFrom (vs : List Elem) (m : Memory) (i j : Nat) :
    (m.writeFrom i vs).read? j = if i ≤ j ∧ j < i + vs.length then vs[j - i]? else m.read? j := by
  induction vs generalizing m i with
  | nil => rw [if_neg (by simp)]; rfl
  | cons v vs ih =>
    rw [Memory.writeFrom, ih, Memory.read?_write]
    simp only [List.length_cons]
    by_cases h : j = i
    · subst h
      rw [if_neg (by omega), if_pos rfl, if_pos (by omega)]
      simp
    · by_cases h2 : i + 1 ≤ j ∧ j < i + 1 + vs.length
      · rw [if_pos h2, if_pos (by omega), show j - i = (j - (i + 1)) + 1 by omega]
        simp
      · rw [if_neg h2, if_neg h, if_neg (by omega)]

/-- The written elements read back. -/
theorem Memory.read?_writeFrom_of_lt {vs : List Elem} (m : Memory) {j : Nat} (h : j < vs.length) :
    (m.writeFrom 0 vs).read? j = some vs[j] := by
  rw [Memory.read?_writeFrom, if_pos (by omega)]
  simp [h]

/-- The elements from the output's length on are left alone. -/
theorem Memory.read?_writeFrom_of_le {vs : List Elem} (m : Memory) {j : Nat} (h : vs.length ≤ j) :
    (m.writeFrom 0 vs).read? j = m.read? j := by
  rw [Memory.read?_writeFrom, if_neg (by omega)]

/-- Consecutive writes keep the canonical form. -/
theorem Memory.wf_writeFrom (vs : List Elem) {m : Memory} (h : m.wf) (i : Nat) : (m.writeFrom i vs).wf := by
  induction vs generalizing m i with
  | nil => exact h
  | cons v vs ih => exact ih (Memory.wf_write h i v) (i + 1)

/-- Consecutive writes below a bound keep every index below it. -/
theorem Memory.lt_writeFrom (vs : List Elem) {m : Memory} {n i : Nat} (h : ∀ c ∈ m, c.1 < n)
    (hi : i + vs.length ≤ n) : ∀ c ∈ m.writeFrom i vs, c.1 < n := by
  induction vs generalizing m i with
  | nil => exact h
  | cons v vs ih =>
    simp only [List.length_cons] at hi
    exact ih (Memory.lt_write h (by omega) v) (by omega)

/-! ### readInput -/

/-- The input is read as `x` exactly when `x` has the length asked for and each element is listed. -/
theorem readInput_eq_ok {m : Memory} {k i : Nat} {x : List Elem} :
    readInput m k i = .ok x ↔ x.length = k ∧ ∀ j (h : j < x.length), m.read? (i + j) = some x[j] := by
  induction k generalizing i x with
  | zero =>
    simp only [readInput, Except.ok.injEq]
    constructor
    · rintro rfl; simp
    · rintro ⟨h, -⟩; exact (List.length_eq_zero_iff.mp h).symm
  | succ k ih =>
    rw [readInput]
    cases hr : m.read? i with
    | none =>
      simp only [reduceCtorEq, false_iff, not_and]
      intro hl hx
      have := hx 0 (by omega)
      simp [hr] at this
    | some v =>
      simp only
      cases ht : readInput m k (i + 1) with
      | error j =>
        simp only [reduceCtorEq, false_iff, not_and]
        intro hl hx
        obtain ⟨y, ys, rfl⟩ := List.exists_cons_of_length_eq_add_one hl
        have : readInput m k (i + 1) = .ok ys := by
          rw [ih]
          refine ⟨by simpa using hl, fun j h => ?_⟩
          have := hx (j + 1) (by simpa using h)
          rw [show i + 1 + j = i + (j + 1) by omega, this]
          simp
        simp [ht] at this
      | ok vs =>
        simp only [Except.ok.injEq]
        rw [ih] at ht
        constructor
        · rintro rfl
          refine ⟨by simp [ht.1], fun j h => ?_⟩
          cases j with
          | zero => simpa using hr
          | succ j =>
            rw [show i + (j + 1) = i + 1 + j by omega]
            simpa using ht.2 j (by simpa using h)
        · rintro ⟨hl, hx⟩
          obtain ⟨y, ys, rfl⟩ := List.exists_cons_of_length_eq_add_one hl
          have h0 := hx 0 (by simp)
          simp only [Nat.add_zero, hr, List.getElem_cons_zero, Option.some.injEq] at h0
          subst h0
          congr 1
          refine List.ext_getElem (by simp at hl; omega) fun j h1 h2 => ?_
          have a := ht.2 j h1
          have b := hx (j + 1) (by simpa using h2)
          rw [show i + (j + 1) = i + 1 + j by omega, a] at b
          simpa using b

/-- Reading fails at `j` exactly when `j` is the lowest index of the range that is not listed. -/
theorem readInput_eq_error {m : Memory} {k i j : Nat} :
    readInput m k i = .error j ↔
      i ≤ j ∧ j < i + k ∧ m.read? j = none ∧ ∀ j', i ≤ j' → j' < j → (m.read? j').isSome := by
  induction k generalizing i with
  | zero => simp only [readInput, reduceCtorEq, false_iff]; omega
  | succ k ih =>
    rw [readInput]
    cases hr : m.read? i with
    | none =>
      simp only [Except.error.injEq]
      constructor
      · rintro rfl; exact ⟨le_refl _, by omega, hr, by omega⟩
      · rintro ⟨h1, h2, h3, h4⟩
        by_contra hne
        have := h4 i (le_refl _) (by omega)
        simp [hr] at this
    | some v =>
      simp only
      have key : (∃ vs, readInput m k (i + 1) = .ok vs) ∨ ∃ e, readInput m k (i + 1) = .error e := by
        cases readInput m k (i + 1) <;> simp
      have step : (i ≤ j ∧ j < i + (k + 1) ∧ m.read? j = none ∧ ∀ j', i ≤ j' → j' < j → (m.read? j').isSome) ↔
          readInput m k (i + 1) = .error j := by
        rw [ih]
        constructor
        · rintro ⟨h1, h2, h3, h4⟩
          have : j ≠ i := by rintro rfl; simp [hr] at h3
          exact ⟨by omega, by omega, h3, fun j' a b => h4 j' (by omega) b⟩
        · rintro ⟨h1, h2, h3, h4⟩
          refine ⟨by omega, by omega, h3, fun j' a b => ?_⟩
          by_cases h : j' = i
          · subst h; simp [hr]
          · exact h4 j' (by omega) b
      rw [step]
      rcases key with ⟨vs, h⟩ | ⟨e, h⟩ <;> simp [h]

end Sys2Proof.Machine
end

