-- ==== Sys2Proof/Laws/State.lean ====
section
/-! SUPPORT. One lemma per field per named update of State, so that no proof unfolds a record update. -/

namespace Sys2Proof.Machine

variable (s : State)

/-! ### draw -/

@[simp] theorem State.draw_params : (s.draw).params = s.params := rfl
@[simp] theorem State.draw_irqEn : (s.draw).irqEn = s.irqEn := rfl
@[simp] theorem State.draw_done : (s.draw).done = s.done := rfl
@[simp] theorem State.draw_err : (s.draw).err = s.err := rfl
@[simp] theorem State.draw_ovr : (s.draw).ovr = s.ovr := rfl
@[simp] theorem State.draw_inLen : (s.draw).inLen = s.inLen := rfl
@[simp] theorem State.draw_outLen : (s.draw).outLen = s.outLen := rfl
@[simp] theorem State.draw_errIndex : (s.draw).errIndex = s.errIndex := rfl
@[simp] theorem State.draw_dictSize : (s.draw).dictSize = s.dictSize := rfl
@[simp] theorem State.draw_dictResets : (s.draw).dictResets = s.dictResets := rfl
@[simp] theorem State.draw_engState : (s.draw).engState = s.engState := rfl
@[simp] theorem State.draw_latchedOp : (s.draw).latchedOp = s.latchedOp := rfl
@[simp] theorem State.draw_latchedLen : (s.draw).latchedLen = s.latchedLen := rfl
@[simp] theorem State.draw_inBuf : (s.draw).inBuf = s.inBuf := rfl
@[simp] theorem State.draw_outBuf : (s.draw).outBuf = s.outBuf := rfl
@[simp] theorem State.draw_inFill : (s.draw).inFill = s.inFill := rfl
@[simp] theorem State.draw_outFill : (s.draw).outFill = s.outFill := rfl
@[simp] theorem State.draw_draws : (s.draw).draws = s.draws + 1 := rfl
@[simp] theorem State.draw_response : (s.draw).response = s.response := rfl
@[simp] theorem State.draw_pending : (s.draw).pending = s.pending := rfl

/-! ### forgetOutput -/

@[simp] theorem State.forgetOutput_params : (s.forgetOutput).params = s.params := rfl
@[simp] theorem State.forgetOutput_irqEn : (s.forgetOutput).irqEn = s.irqEn := rfl
@[simp] theorem State.forgetOutput_done : (s.forgetOutput).done = s.done := rfl
@[simp] theorem State.forgetOutput_err : (s.forgetOutput).err = s.err := rfl
@[simp] theorem State.forgetOutput_ovr : (s.forgetOutput).ovr = s.ovr := rfl
@[simp] theorem State.forgetOutput_inLen : (s.forgetOutput).inLen = s.inLen := rfl
@[simp] theorem State.forgetOutput_outLen : (s.forgetOutput).outLen = s.outLen := rfl
@[simp] theorem State.forgetOutput_errIndex : (s.forgetOutput).errIndex = s.errIndex := rfl
@[simp] theorem State.forgetOutput_dictSize : (s.forgetOutput).dictSize = s.dictSize := rfl
@[simp] theorem State.forgetOutput_dictResets : (s.forgetOutput).dictResets = s.dictResets := rfl
@[simp] theorem State.forgetOutput_engState : (s.forgetOutput).engState = s.engState := rfl
@[simp] theorem State.forgetOutput_latchedOp : (s.forgetOutput).latchedOp = s.latchedOp := rfl
@[simp] theorem State.forgetOutput_latchedLen : (s.forgetOutput).latchedLen = s.latchedLen := rfl
@[simp] theorem State.forgetOutput_inBuf : (s.forgetOutput).inBuf = s.inBuf := rfl
@[simp] theorem State.forgetOutput_outBuf : (s.forgetOutput).outBuf = [] := rfl
@[simp] theorem State.forgetOutput_inFill : (s.forgetOutput).inFill = s.inFill := rfl
@[simp] theorem State.forgetOutput_outFill : (s.forgetOutput).outFill = s.draws := rfl
@[simp] theorem State.forgetOutput_draws : (s.forgetOutput).draws = s.draws + 1 := rfl
@[simp] theorem State.forgetOutput_response : (s.forgetOutput).response = s.response := rfl
@[simp] theorem State.forgetOutput_pending : (s.forgetOutput).pending = s.pending := rfl

/-! ### writeDict -/

@[simp] theorem State.writeDict_none : s.writeDict none = s := rfl
@[simp] theorem State.writeDict_some_dictSize (d : DictCount) : (s.writeDict (some d)).dictSize = BitVec.ofNat 32 d.size := rfl
@[simp] theorem State.writeDict_some_dictResets (d : DictCount) :
    (s.writeDict (some d)).dictResets = BitVec.ofNat 32 d.resets := rfl
@[simp] theorem State.writeDict_params (d : Option DictCount) : (s.writeDict d).params = s.params := by cases d <;> rfl
@[simp] theorem State.writeDict_irqEn (d : Option DictCount) : (s.writeDict d).irqEn = s.irqEn := by cases d <;> rfl
@[simp] theorem State.writeDict_done (d : Option DictCount) : (s.writeDict d).done = s.done := by cases d <;> rfl
@[simp] theorem State.writeDict_err (d : Option DictCount) : (s.writeDict d).err = s.err := by cases d <;> rfl
@[simp] theorem State.writeDict_ovr (d : Option DictCount) : (s.writeDict d).ovr = s.ovr := by cases d <;> rfl
@[simp] theorem State.writeDict_inLen (d : Option DictCount) : (s.writeDict d).inLen = s.inLen := by cases d <;> rfl
@[simp] theorem State.writeDict_outLen (d : Option DictCount) : (s.writeDict d).outLen = s.outLen := by cases d <;> rfl
@[simp] theorem State.writeDict_errIndex (d : Option DictCount) : (s.writeDict d).errIndex = s.errIndex := by cases d <;> rfl
@[simp] theorem State.writeDict_engState (d : Option DictCount) : (s.writeDict d).engState = s.engState := by cases d <;> rfl
@[simp] theorem State.writeDict_latchedOp (d : Option DictCount) : (s.writeDict d).latchedOp = s.latchedOp := by cases d <;> rfl
@[simp] theorem State.writeDict_latchedLen (d : Option DictCount) : (s.writeDict d).latchedLen = s.latchedLen := by cases d <;> rfl
@[simp] theorem State.writeDict_inBuf (d : Option DictCount) : (s.writeDict d).inBuf = s.inBuf := by cases d <;> rfl
@[simp] theorem State.writeDict_outBuf (d : Option DictCount) : (s.writeDict d).outBuf = s.outBuf := by cases d <;> rfl
@[simp] theorem State.writeDict_inFill (d : Option DictCount) : (s.writeDict d).inFill = s.inFill := by cases d <;> rfl
@[simp] theorem State.writeDict_outFill (d : Option DictCount) : (s.writeDict d).outFill = s.outFill := by cases d <;> rfl
@[simp] theorem State.writeDict_draws (d : Option DictCount) : (s.writeDict d).draws = s.draws := by cases d <;> rfl
@[simp] theorem State.writeDict_response (d : Option DictCount) : (s.writeDict d).response = s.response := by cases d <;> rfl
@[simp] theorem State.writeDict_pending (d : Option DictCount) : (s.writeDict d).pending = s.pending := by cases d <;> rfl

/-! ### completeOk -/

@[simp] theorem State.completeOk_params (out : List Elem) (d : Option DictCount) :
    (s.completeOk out d).params = s.params := by cases d <;> rfl
@[simp] theorem State.completeOk_irqEn (out : List Elem) (d : Option DictCount) :
    (s.completeOk out d).irqEn = s.irqEn := by cases d <;> rfl
@[simp] theorem State.completeOk_done (out : List Elem) (d : Option DictCount) :
    (s.completeOk out d).done = true := rfl
@[simp] theorem State.completeOk_err (out : List Elem) (d : Option DictCount) :
    (s.completeOk out d).err = .none := rfl
@[simp] theorem State.completeOk_ovr (out : List Elem) (d : Option DictCount) :
    (s.completeOk out d).ovr = s.ovr := by cases d <;> rfl
@[simp] theorem State.completeOk_inLen (out : List Elem) (d : Option DictCount) :
    (s.completeOk out d).inLen = s.inLen := by cases d <;> rfl
@[simp] theorem State.completeOk_outLen (out : List Elem) (d : Option DictCount) :
    (s.completeOk out d).outLen = BitVec.ofNat 32 out.length := rfl
@[simp] theorem State.completeOk_errIndex (out : List Elem) (d : Option DictCount) :
    (s.completeOk out d).errIndex = 0#32 := rfl
@[simp] theorem State.completeOk_dictSize (out : List Elem) (d : Option DictCount) :
    (s.completeOk out d).dictSize = (s.writeDict d).dictSize := rfl
@[simp] theorem State.completeOk_dictResets (out : List Elem) (d : Option DictCount) :
    (s.completeOk out d).dictResets = (s.writeDict d).dictResets := rfl
@[simp] theorem State.completeOk_engState (out : List Elem) (d : Option DictCount) :
    (s.completeOk out d).engState = .idle := rfl
@[simp] theorem State.completeOk_latchedOp (out : List Elem) (d : Option DictCount) :
    (s.completeOk out d).latchedOp = s.latchedOp := by cases d <;> rfl
@[simp] theorem State.completeOk_latchedLen (out : List Elem) (d : Option DictCount) :
    (s.completeOk out d).latchedLen = s.latchedLen := by cases d <;> rfl
@[simp] theorem State.completeOk_inBuf (out : List Elem) (d : Option DictCount) :
    (s.completeOk out d).inBuf = s.inBuf := by cases d <;> rfl
@[simp] theorem State.completeOk_outBuf (out : List Elem) (d : Option DictCount) :
    (s.completeOk out d).outBuf = s.outBuf.writeFrom 0 out := rfl
@[simp] theorem State.completeOk_inFill (out : List Elem) (d : Option DictCount) :
    (s.completeOk out d).inFill = s.inFill := by cases d <;> rfl
@[simp] theorem State.completeOk_outFill (out : List Elem) (d : Option DictCount) :
    (s.completeOk out d).outFill = s.outFill := by cases d <;> rfl
@[simp] theorem State.completeOk_draws (out : List Elem) (d : Option DictCount) :
    (s.completeOk out d).draws = s.draws := by cases d <;> rfl
@[simp] theorem State.completeOk_response (out : List Elem) (d : Option DictCount) :
    (s.completeOk out d).response = s.response := by cases d <;> rfl
@[simp] theorem State.completeOk_pending (out : List Elem) (d : Option DictCount) :
    (s.completeOk out d).pending = s.pending := by cases d <;> rfl

/-! ### completeError -/

@[simp] theorem State.completeError_params (e : CommandError) (d : Option DictCount) :
    (s.completeError e d).params = s.params := by cases d <;> rfl
@[simp] theorem State.completeError_irqEn (e : CommandError) (d : Option DictCount) :
    (s.completeError e d).irqEn = s.irqEn := by cases d <;> rfl
@[simp] theorem State.completeError_done (e : CommandError) (d : Option DictCount) :
    (s.completeError e d).done = true := rfl
@[simp] theorem State.completeError_err (e : CommandError) (d : Option DictCount) :
    (s.completeError e d).err = e.code := rfl
@[simp] theorem State.completeError_ovr (e : CommandError) (d : Option DictCount) :
    (s.completeError e d).ovr = s.ovr := by cases d <;> rfl
@[simp] theorem State.completeError_inLen (e : CommandError) (d : Option DictCount) :
    (s.completeError e d).inLen = s.inLen := by cases d <;> rfl
@[simp] theorem State.completeError_outLen (e : CommandError) (d : Option DictCount) :
    (s.completeError e d).outLen = 0#32 := rfl
@[simp] theorem State.completeError_errIndex (e : CommandError) (d : Option DictCount) :
    (s.completeError e d).errIndex = BitVec.ofNat 32 e.cursor := rfl
@[simp] theorem State.completeError_dictSize (e : CommandError) (d : Option DictCount) :
    (s.completeError e d).dictSize = (s.writeDict d).dictSize := rfl
@[simp] theorem State.completeError_dictResets (e : CommandError) (d : Option DictCount) :
    (s.completeError e d).dictResets = (s.writeDict d).dictResets := rfl
@[simp] theorem State.completeError_engState (e : CommandError) (d : Option DictCount) :
    (s.completeError e d).engState = .idle := rfl
@[simp] theorem State.completeError_latchedOp (e : CommandError) (d : Option DictCount) :
    (s.completeError e d).latchedOp = s.latchedOp := by cases d <;> rfl
@[simp] theorem State.completeError_latchedLen (e : CommandError) (d : Option DictCount) :
    (s.completeError e d).latchedLen = s.latchedLen := by cases d <;> rfl
@[simp] theorem State.completeError_inBuf (e : CommandError) (d : Option DictCount) :
    (s.completeError e d).inBuf = s.inBuf := by cases d <;> rfl
@[simp] theorem State.completeError_outBuf (e : CommandError) (d : Option DictCount) :
    (s.completeError e d).outBuf = [] := rfl
@[simp] theorem State.completeError_inFill (e : CommandError) (d : Option DictCount) :
    (s.completeError e d).inFill = s.inFill := by cases d <;> rfl
@[simp] theorem State.completeError_outFill (e : CommandError) (d : Option DictCount) :
    (s.completeError e d).outFill = s.draws := by cases d <;> rfl
@[simp] theorem State.completeError_draws (e : CommandError) (d : Option DictCount) :
    (s.completeError e d).draws = s.draws + 1 := by cases d <;> rfl
@[simp] theorem State.completeError_response (e : CommandError) (d : Option DictCount) :
    (s.completeError e d).response = s.response := by cases d <;> rfl
@[simp] theorem State.completeError_pending (e : CommandError) (d : Option DictCount) :
    (s.completeError e d).pending = s.pending := by cases d <;> rfl

/-! ### accept -/

@[simp] theorem State.accept_params (w : Word) : (s.accept w).params = s.params := rfl
@[simp] theorem State.accept_irqEn (w : Word) : (s.accept w).irqEn = s.irqEn := rfl
@[simp] theorem State.accept_done (w : Word) : (s.accept w).done = false := rfl
@[simp] theorem State.accept_err (w : Word) : (s.accept w).err = .none := rfl
@[simp] theorem State.accept_ovr (w : Word) : (s.accept w).ovr = s.ovr := rfl
@[simp] theorem State.accept_inLen (w : Word) : (s.accept w).inLen = s.inLen := rfl
@[simp] theorem State.accept_outLen (w : Word) : (s.accept w).outLen = s.outLen := rfl
@[simp] theorem State.accept_errIndex (w : Word) : (s.accept w).errIndex = s.errIndex := rfl
@[simp] theorem State.accept_dictSize (w : Word) : (s.accept w).dictSize = s.dictSize := rfl
@[simp] theorem State.accept_dictResets (w : Word) : (s.accept w).dictResets = s.dictResets := rfl
@[simp] theorem State.accept_engState (w : Word) : (s.accept w).engState = .busy := rfl
@[simp] theorem State.accept_latchedOp (w : Word) : (s.accept w).latchedOp = w.extractLsb' 0 4 := rfl
@[simp] theorem State.accept_latchedLen (w : Word) : (s.accept w).latchedLen = s.inLen := rfl
@[simp] theorem State.accept_inBuf (w : Word) : (s.accept w).inBuf = s.inBuf := rfl
@[simp] theorem State.accept_outBuf (w : Word) : (s.accept w).outBuf = s.outBuf := rfl
@[simp] theorem State.accept_inFill (w : Word) : (s.accept w).inFill = s.inFill := rfl
@[simp] theorem State.accept_outFill (w : Word) : (s.accept w).outFill = s.outFill := rfl
@[simp] theorem State.accept_draws (w : Word) : (s.accept w).draws = s.draws := rfl
@[simp] theorem State.accept_response (w : Word) : (s.accept w).response = s.response := rfl
@[simp] theorem State.accept_pending (w : Word) : (s.accept w).pending = s.pending := rfl

/-! ### refuseIllegal -/

@[simp] theorem State.refuseIllegal_params : (s.refuseIllegal).params = s.params := rfl
@[simp] theorem State.refuseIllegal_irqEn : (s.refuseIllegal).irqEn = s.irqEn := rfl
@[simp] theorem State.refuseIllegal_done : (s.refuseIllegal).done = true := rfl
@[simp] theorem State.refuseIllegal_err : (s.refuseIllegal).err = .illegalCommand := rfl
@[simp] theorem State.refuseIllegal_ovr : (s.refuseIllegal).ovr = s.ovr := rfl
@[simp] theorem State.refuseIllegal_inLen : (s.refuseIllegal).inLen = s.inLen := rfl
@[simp] theorem State.refuseIllegal_outLen : (s.refuseIllegal).outLen = 0#32 := rfl
@[simp] theorem State.refuseIllegal_errIndex : (s.refuseIllegal).errIndex = 0#32 := rfl
@[simp] theorem State.refuseIllegal_dictSize : (s.refuseIllegal).dictSize = s.dictSize := rfl
@[simp] theorem State.refuseIllegal_dictResets : (s.refuseIllegal).dictResets = s.dictResets := rfl
@[simp] theorem State.refuseIllegal_engState : (s.refuseIllegal).engState = s.engState := rfl
@[simp] theorem State.refuseIllegal_latchedOp : (s.refuseIllegal).latchedOp = s.latchedOp := rfl
@[simp] theorem State.refuseIllegal_latchedLen : (s.refuseIllegal).latchedLen = s.latchedLen := rfl
@[simp] theorem State.refuseIllegal_inBuf : (s.refuseIllegal).inBuf = s.inBuf := rfl
@[simp] theorem State.refuseIllegal_outBuf : (s.refuseIllegal).outBuf = s.outBuf := rfl
@[simp] theorem State.refuseIllegal_inFill : (s.refuseIllegal).inFill = s.inFill := rfl
@[simp] theorem State.refuseIllegal_outFill : (s.refuseIllegal).outFill = s.outFill := rfl
@[simp] theorem State.refuseIllegal_draws : (s.refuseIllegal).draws = s.draws := rfl
@[simp] theorem State.refuseIllegal_response : (s.refuseIllegal).response = s.response := rfl
@[simp] theorem State.refuseIllegal_pending : (s.refuseIllegal).pending = s.pending := rfl

/-! ### clearStatus -/

@[simp] theorem State.clearStatus_params (w : Word) : (s.clearStatus w).params = s.params := rfl
@[simp] theorem State.clearStatus_irqEn (w : Word) : (s.clearStatus w).irqEn = s.irqEn := rfl
@[simp] theorem State.clearStatus_done (w : Word) : (s.clearStatus w).done = (s.done && !w.getLsbD 1) := rfl
@[simp] theorem State.clearStatus_err (w : Word) : (s.clearStatus w).err = (if w.getLsbD 1 then .none else s.err) := rfl
@[simp] theorem State.clearStatus_ovr (w : Word) : (s.clearStatus w).ovr = (s.ovr && !w.getLsbD 8) := rfl
@[simp] theorem State.clearStatus_inLen (w : Word) : (s.clearStatus w).inLen = s.inLen := rfl
@[simp] theorem State.clearStatus_outLen (w : Word) : (s.clearStatus w).outLen = s.outLen := rfl
@[simp] theorem State.clearStatus_errIndex (w : Word) : (s.clearStatus w).errIndex = s.errIndex := rfl
@[simp] theorem State.clearStatus_dictSize (w : Word) : (s.clearStatus w).dictSize = s.dictSize := rfl
@[simp] theorem State.clearStatus_dictResets (w : Word) : (s.clearStatus w).dictResets = s.dictResets := rfl
@[simp] theorem State.clearStatus_engState (w : Word) : (s.clearStatus w).engState = s.engState := rfl
@[simp] theorem State.clearStatus_latchedOp (w : Word) : (s.clearStatus w).latchedOp = s.latchedOp := rfl
@[simp] theorem State.clearStatus_latchedLen (w : Word) : (s.clearStatus w).latchedLen = s.latchedLen := rfl
@[simp] theorem State.clearStatus_inBuf (w : Word) : (s.clearStatus w).inBuf = s.inBuf := rfl
@[simp] theorem State.clearStatus_outBuf (w : Word) : (s.clearStatus w).outBuf = s.outBuf := rfl
@[simp] theorem State.clearStatus_inFill (w : Word) : (s.clearStatus w).inFill = s.inFill := rfl
@[simp] theorem State.clearStatus_outFill (w : Word) : (s.clearStatus w).outFill = s.outFill := rfl
@[simp] theorem State.clearStatus_draws (w : Word) : (s.clearStatus w).draws = s.draws := rfl
@[simp] theorem State.clearStatus_response (w : Word) : (s.clearStatus w).response = s.response := rfl
@[simp] theorem State.clearStatus_pending (w : Word) : (s.clearStatus w).pending = s.pending := rfl

/-! ### resetRegs -/

@[simp] theorem State.resetRegs_params : (s.resetRegs).params = s.params := rfl
@[simp] theorem State.resetRegs_irqEn : (s.resetRegs).irqEn = false := rfl
@[simp] theorem State.resetRegs_done : (s.resetRegs).done = false := rfl
@[simp] theorem State.resetRegs_err : (s.resetRegs).err = .none := rfl
@[simp] theorem State.resetRegs_ovr : (s.resetRegs).ovr = false := rfl
@[simp] theorem State.resetRegs_inLen : (s.resetRegs).inLen = 0#32 := rfl
@[simp] theorem State.resetRegs_outLen : (s.resetRegs).outLen = 0#32 := rfl
@[simp] theorem State.resetRegs_errIndex : (s.resetRegs).errIndex = 0#32 := rfl
@[simp] theorem State.resetRegs_dictSize : (s.resetRegs).dictSize = 256#32 := rfl
@[simp] theorem State.resetRegs_dictResets : (s.resetRegs).dictResets = 0#32 := rfl
@[simp] theorem State.resetRegs_engState : (s.resetRegs).engState = .idle := rfl
@[simp] theorem State.resetRegs_latchedOp : (s.resetRegs).latchedOp = 0#4 := rfl
@[simp] theorem State.resetRegs_latchedLen : (s.resetRegs).latchedLen = 0#32 := rfl
@[simp] theorem State.resetRegs_inBuf : (s.resetRegs).inBuf = s.inBuf := rfl
@[simp] theorem State.resetRegs_outBuf : (s.resetRegs).outBuf = s.outBuf := rfl
@[simp] theorem State.resetRegs_inFill : (s.resetRegs).inFill = s.inFill := rfl
@[simp] theorem State.resetRegs_outFill : (s.resetRegs).outFill = s.outFill := rfl
@[simp] theorem State.resetRegs_draws : (s.resetRegs).draws = s.draws := rfl
@[simp] theorem State.resetRegs_response : (s.resetRegs).response = s.response := rfl
@[simp] theorem State.resetRegs_pending : (s.resetRegs).pending = s.pending := rfl

/-! ### hardReset -/

@[simp] theorem State.hardReset_params : (s.hardReset).params = s.params := rfl
@[simp] theorem State.hardReset_irqEn : (s.hardReset).irqEn = false := rfl
@[simp] theorem State.hardReset_done : (s.hardReset).done = false := rfl
@[simp] theorem State.hardReset_err : (s.hardReset).err = .none := rfl
@[simp] theorem State.hardReset_ovr : (s.hardReset).ovr = false := rfl
@[simp] theorem State.hardReset_inLen : (s.hardReset).inLen = 0#32 := rfl
@[simp] theorem State.hardReset_outLen : (s.hardReset).outLen = 0#32 := rfl
@[simp] theorem State.hardReset_errIndex : (s.hardReset).errIndex = 0#32 := rfl
@[simp] theorem State.hardReset_dictSize : (s.hardReset).dictSize = 256#32 := rfl
@[simp] theorem State.hardReset_dictResets : (s.hardReset).dictResets = 0#32 := rfl
@[simp] theorem State.hardReset_engState : (s.hardReset).engState = .idle := rfl
@[simp] theorem State.hardReset_latchedOp : (s.hardReset).latchedOp = 0#4 := rfl
@[simp] theorem State.hardReset_latchedLen : (s.hardReset).latchedLen = 0#32 := rfl
@[simp] theorem State.hardReset_inBuf : (s.hardReset).inBuf = [] := rfl
@[simp] theorem State.hardReset_outBuf : (s.hardReset).outBuf = [] := rfl
@[simp] theorem State.hardReset_inFill : (s.hardReset).inFill = s.draws := rfl
@[simp] theorem State.hardReset_outFill : (s.hardReset).outFill = s.draws := rfl
@[simp] theorem State.hardReset_draws : (s.hardReset).draws = s.draws + 1 := rfl
@[simp] theorem State.hardReset_response : (s.hardReset).response = none := rfl
@[simp] theorem State.hardReset_pending : (s.hardReset).pending = s.pending := rfl

/-! ### softReset -/

@[simp] theorem State.softReset_params (b : Bool) : (s.softReset b).params = s.params := by
  cases h : s.engState <;> simp [State.softReset, h]
@[simp] theorem State.softReset_irqEn (b : Bool) : (s.softReset b).irqEn = b := by
  cases h : s.engState <;> simp [State.softReset, h]
@[simp] theorem State.softReset_done (b : Bool) : (s.softReset b).done = false := by
  cases h : s.engState <;> simp [State.softReset, h]
@[simp] theorem State.softReset_err (b : Bool) : (s.softReset b).err = .none := by
  cases h : s.engState <;> simp [State.softReset, h]
@[simp] theorem State.softReset_ovr (b : Bool) : (s.softReset b).ovr = false := by
  cases h : s.engState <;> simp [State.softReset, h]
@[simp] theorem State.softReset_inLen (b : Bool) : (s.softReset b).inLen = 0#32 := by
  cases h : s.engState <;> simp [State.softReset, h]
@[simp] theorem State.softReset_outLen (b : Bool) : (s.softReset b).outLen = 0#32 := by
  cases h : s.engState <;> simp [State.softReset, h]
@[simp] theorem State.softReset_errIndex (b : Bool) : (s.softReset b).errIndex = 0#32 := by
  cases h : s.engState <;> simp [State.softReset, h]
@[simp] theorem State.softReset_dictSize (b : Bool) : (s.softReset b).dictSize = 256#32 := by
  cases h : s.engState <;> simp [State.softReset, h]
@[simp] theorem State.softReset_dictResets (b : Bool) : (s.softReset b).dictResets = 0#32 := by
  cases h : s.engState <;> simp [State.softReset, h]
@[simp] theorem State.softReset_engState (b : Bool) : (s.softReset b).engState = .idle := by
  cases h : s.engState <;> simp [State.softReset, h]
@[simp] theorem State.softReset_latchedOp (b : Bool) : (s.softReset b).latchedOp = 0#4 := by
  cases h : s.engState <;> simp [State.softReset, h]
@[simp] theorem State.softReset_latchedLen (b : Bool) : (s.softReset b).latchedLen = 0#32 := by
  cases h : s.engState <;> simp [State.softReset, h]
@[simp] theorem State.softReset_inBuf (b : Bool) : (s.softReset b).inBuf = s.inBuf := by
  cases h : s.engState <;> simp [State.softReset, h]
@[simp] theorem State.softReset_inFill (b : Bool) : (s.softReset b).inFill = s.inFill := by
  cases h : s.engState <;> simp [State.softReset, h]
@[simp] theorem State.softReset_response (b : Bool) : (s.softReset b).response = s.response := by
  cases h : s.engState <;> simp [State.softReset, h]
@[simp] theorem State.softReset_pending (b : Bool) : (s.softReset b).pending = s.pending := by
  cases h : s.engState <;> simp [State.softReset, h]
theorem State.softReset_idle_outBuf (b : Bool) (h : s.engState = .idle) : (s.softReset b).outBuf = s.outBuf := by
  simp [State.softReset, h]
theorem State.softReset_idle_outFill (b : Bool) (h : s.engState = .idle) : (s.softReset b).outFill = s.outFill := by
  simp [State.softReset, h]
theorem State.softReset_idle_draws (b : Bool) (h : s.engState = .idle) : (s.softReset b).draws = s.draws := by
  simp [State.softReset, h]
theorem State.softReset_busy_outBuf (b : Bool) (h : s.engState = .busy) : (s.softReset b).outBuf = [] := by
  simp [State.softReset, h]
theorem State.softReset_busy_outFill (b : Bool) (h : s.engState = .busy) : (s.softReset b).outFill = s.draws := by
  simp [State.softReset, h]
theorem State.softReset_busy_draws (b : Bool) (h : s.engState = .busy) : (s.softReset b).draws = s.draws + 1 := by
  simp [State.softReset, h]

/-! ### respond -/

@[simp] theorem State.respond_params (v : Word) : (s.respond v).params = s.params := rfl
@[simp] theorem State.respond_irqEn (v : Word) : (s.respond v).irqEn = s.irqEn := rfl
@[simp] theorem State.respond_done (v : Word) : (s.respond v).done = s.done := rfl
@[simp] theorem State.respond_err (v : Word) : (s.respond v).err = s.err := rfl
@[simp] theorem State.respond_ovr (v : Word) : (s.respond v).ovr = s.ovr := rfl
@[simp] theorem State.respond_inLen (v : Word) : (s.respond v).inLen = s.inLen := rfl
@[simp] theorem State.respond_outLen (v : Word) : (s.respond v).outLen = s.outLen := rfl
@[simp] theorem State.respond_errIndex (v : Word) : (s.respond v).errIndex = s.errIndex := rfl
@[simp] theorem State.respond_dictSize (v : Word) : (s.respond v).dictSize = s.dictSize := rfl
@[simp] theorem State.respond_dictResets (v : Word) : (s.respond v).dictResets = s.dictResets := rfl
@[simp] theorem State.respond_engState (v : Word) : (s.respond v).engState = s.engState := rfl
@[simp] theorem State.respond_latchedOp (v : Word) : (s.respond v).latchedOp = s.latchedOp := rfl
@[simp] theorem State.respond_latchedLen (v : Word) : (s.respond v).latchedLen = s.latchedLen := rfl
@[simp] theorem State.respond_inBuf (v : Word) : (s.respond v).inBuf = s.inBuf := rfl
@[simp] theorem State.respond_outBuf (v : Word) : (s.respond v).outBuf = s.outBuf := rfl
@[simp] theorem State.respond_inFill (v : Word) : (s.respond v).inFill = s.inFill := rfl
@[simp] theorem State.respond_outFill (v : Word) : (s.respond v).outFill = s.outFill := rfl
@[simp] theorem State.respond_draws (v : Word) : (s.respond v).draws = s.draws := rfl
@[simp] theorem State.respond_response (v : Word) : (s.respond v).response = some v := rfl
@[simp] theorem State.respond_pending (v : Word) : (s.respond v).pending = s.pending := rfl

/-! ### respondNothing -/

@[simp] theorem State.respondNothing_params : (s.respondNothing).params = s.params := rfl
@[simp] theorem State.respondNothing_irqEn : (s.respondNothing).irqEn = s.irqEn := rfl
@[simp] theorem State.respondNothing_done : (s.respondNothing).done = s.done := rfl
@[simp] theorem State.respondNothing_err : (s.respondNothing).err = s.err := rfl
@[simp] theorem State.respondNothing_ovr : (s.respondNothing).ovr = s.ovr := rfl
@[simp] theorem State.respondNothing_inLen : (s.respondNothing).inLen = s.inLen := rfl
@[simp] theorem State.respondNothing_outLen : (s.respondNothing).outLen = s.outLen := rfl
@[simp] theorem State.respondNothing_errIndex : (s.respondNothing).errIndex = s.errIndex := rfl
@[simp] theorem State.respondNothing_dictSize : (s.respondNothing).dictSize = s.dictSize := rfl
@[simp] theorem State.respondNothing_dictResets : (s.respondNothing).dictResets = s.dictResets := rfl
@[simp] theorem State.respondNothing_engState : (s.respondNothing).engState = s.engState := rfl
@[simp] theorem State.respondNothing_latchedOp : (s.respondNothing).latchedOp = s.latchedOp := rfl
@[simp] theorem State.respondNothing_latchedLen : (s.respondNothing).latchedLen = s.latchedLen := rfl
@[simp] theorem State.respondNothing_inBuf : (s.respondNothing).inBuf = s.inBuf := rfl
@[simp] theorem State.respondNothing_outBuf : (s.respondNothing).outBuf = s.outBuf := rfl
@[simp] theorem State.respondNothing_inFill : (s.respondNothing).inFill = s.inFill := rfl
@[simp] theorem State.respondNothing_outFill : (s.respondNothing).outFill = s.outFill := rfl
@[simp] theorem State.respondNothing_draws : (s.respondNothing).draws = s.draws := rfl
@[simp] theorem State.respondNothing_response : (s.respondNothing).response = none := rfl
@[simp] theorem State.respondNothing_pending : (s.respondNothing).pending = s.pending := rfl

/-! ### setPending -/

@[simp] theorem State.setPending_params (rest : List Event) : (s.setPending rest).params = s.params := rfl
@[simp] theorem State.setPending_irqEn (rest : List Event) : (s.setPending rest).irqEn = s.irqEn := rfl
@[simp] theorem State.setPending_done (rest : List Event) : (s.setPending rest).done = s.done := rfl
@[simp] theorem State.setPending_err (rest : List Event) : (s.setPending rest).err = s.err := rfl
@[simp] theorem State.setPending_ovr (rest : List Event) : (s.setPending rest).ovr = s.ovr := rfl
@[simp] theorem State.setPending_inLen (rest : List Event) : (s.setPending rest).inLen = s.inLen := rfl
@[simp] theorem State.setPending_outLen (rest : List Event) : (s.setPending rest).outLen = s.outLen := rfl
@[simp] theorem State.setPending_errIndex (rest : List Event) : (s.setPending rest).errIndex = s.errIndex := rfl
@[simp] theorem State.setPending_dictSize (rest : List Event) : (s.setPending rest).dictSize = s.dictSize := rfl
@[simp] theorem State.setPending_dictResets (rest : List Event) : (s.setPending rest).dictResets = s.dictResets := rfl
@[simp] theorem State.setPending_engState (rest : List Event) : (s.setPending rest).engState = s.engState := rfl
@[simp] theorem State.setPending_latchedOp (rest : List Event) : (s.setPending rest).latchedOp = s.latchedOp := rfl
@[simp] theorem State.setPending_latchedLen (rest : List Event) : (s.setPending rest).latchedLen = s.latchedLen := rfl
@[simp] theorem State.setPending_inBuf (rest : List Event) : (s.setPending rest).inBuf = s.inBuf := rfl
@[simp] theorem State.setPending_outBuf (rest : List Event) : (s.setPending rest).outBuf = s.outBuf := rfl
@[simp] theorem State.setPending_inFill (rest : List Event) : (s.setPending rest).inFill = s.inFill := rfl
@[simp] theorem State.setPending_outFill (rest : List Event) : (s.setPending rest).outFill = s.outFill := rfl
@[simp] theorem State.setPending_draws (rest : List Event) : (s.setPending rest).draws = s.draws := rfl
@[simp] theorem State.setPending_response (rest : List Event) : (s.setPending rest).response = s.response := rfl
@[simp] theorem State.setPending_pending (rest : List Event) : (s.setPending rest).pending = rest := rfl

end Sys2Proof.Machine
end

