-- ==== Sys2Proof/Laws/Execute.lean ====
section
/-! SUPPORT. What the shared operations of a command can do: the execution skeleton, the end of a body, and the two
completions. Provers cite these and leave `execute` folded. -/

namespace Sys2Proof.Machine

/-! ### The command behind each arm of exec -/

/-- The command that an instruction's meaning runs. -/
def commandOf : Instr → Command
  | .unpack => unpackCommand
  | .pack => packCommand
  | .decode => decodeCommand
  | .decodePacked => decodePackedCommand
  | .encode => encodeCommand

theorem exec_eq_execute (i : Instr) (s : State) : exec i s = execute (commandOf i) s := by cases i <;> rfl

theorem commandOf_hasDict (i : Instr) : (commandOf i).hasDict = usesDict i := by cases i <;> rfl

/-! ### HasInput -/

theorem State.hasInput_iff {s : State} {x : List Elem} :
    s.HasInput x ↔
      s.latchedLen.toNat ≤ s.params.inDepth ∧ readInput s.inBuf s.latchedLen.toNat 0 = .ok x := by
  rw [readInput_eq_ok]
  simp only [State.HasInput, Nat.zero_add]
  constructor
  · rintro ⟨h1, h2, h3⟩; exact ⟨by omega, h1.symm, h3⟩
  · rintro ⟨h1, h2, h3⟩; exact ⟨h2.symm, by omega, h3⟩

/-- A state has at most one input. -/
theorem State.HasInput.unique {s : State} {x y : List Elem} (hx : s.HasInput x) (hy : s.HasInput y) : x = y := by
  have h1 := (State.hasInput_iff.mp hx).2
  have h2 := (State.hasInput_iff.mp hy).2
  simpa [h1] using h2

theorem State.HasInput.length_lt {s : State} {x : List Elem} (hx : s.HasInput x) : x.length < 2 ^ 32 := by
  have := hx.1
  omega

/-- A state has an input when its length fits and every element of it is written. -/
theorem State.exists_hasInput {s : State} (h : s.latchedLen.toNat ≤ s.params.inDepth)
    (hw : ∀ j, j < s.latchedLen.toNat → s.written j = true) : ∃ x, s.HasInput x := by
  cases hr : readInput s.inBuf s.latchedLen.toNat 0 with
  | ok x => exact ⟨x, State.hasInput_iff.mpr ⟨h, hr⟩⟩
  | error j =>
    obtain ⟨-, h2, h3, -⟩ := readInput_eq_error.mp hr
    have := hw j (by omega)
    simp [State.written, h3] at this

theorem State.HasInput.written {s : State} {x : List Elem} (hx : s.HasInput x) {j : Nat} (h : j < x.length) :
    s.written j = true := by
  simp [State.written, hx.2.2 j h]

/-! ### execute -/

theorem execute_of_length {c : Command} {s : State} (h : s.params.inDepth < s.latchedLen.toNat) :
    execute c s = .next (s.complete c (.error { code := .length, cursor := 0 } .fresh)) := by
  simp [execute, h]

theorem execute_of_hasInput {c : Command} {s : State} {x : List Elem} (h : s.HasInput x) :
    execute c s = .next (s.complete c (c.run s.params x)) := by
  obtain ⟨h1, h2⟩ := State.hasInput_iff.mp h
  simp [execute, Nat.not_lt.mpr h1, h2]

/-- Everything `execute` can do. -/
theorem execute_cases (c : Command) (s : State) :
    (s.params.inDepth < s.latchedLen.toNat ∧
      execute c s = .next (s.complete c (.error { code := .length, cursor := 0 } .fresh))) ∨
    (∃ x, s.HasInput x ∧ execute c s = .next (s.complete c (c.run s.params x))) ∨
    (∃ j, s.latchedLen.toNat ≤ s.params.inDepth ∧ j < s.latchedLen.toNat ∧ s.written j = false ∧
      (∀ j', j' < j → s.written j' = true) ∧ execute c s = .fault (.unwrittenInput j)) := by
  by_cases h : s.params.inDepth < s.latchedLen.toNat
  · exact .inl ⟨h, execute_of_length h⟩
  · right
    cases hr : readInput s.inBuf s.latchedLen.toNat 0 with
    | ok x =>
      have hx := State.hasInput_iff.mpr ⟨Nat.not_lt.mp h, hr⟩
      exact .inl ⟨x, hx, execute_of_hasInput hx⟩
    | error j =>
      obtain ⟨-, h2, h3, h4⟩ := readInput_eq_error.mp hr
      refine .inr ⟨j, Nat.not_lt.mp h, by omega, by simp [State.written, h3], fun j' hj => h4 j' (by omega) hj, ?_⟩
      simp [execute, h, hr]

/-- A next state of `execute` comes from the LENGTH error or from a run on the input. -/
theorem execute_next {c : Command} {s t : State} (h : execute c s = .next t) :
    (s.params.inDepth < s.latchedLen.toNat ∧ t = s.complete c (.error { code := .length, cursor := 0 } .fresh)) ∨
    (∃ x, s.HasInput x ∧ t = s.complete c (c.run s.params x)) := by
  rcases execute_cases c s with ⟨h1, h2⟩ | ⟨x, h1, h2⟩ | ⟨j, -, -, -, -, h2⟩
  · exact .inl ⟨h1, by simpa [h2] using h.symm⟩
  · exact .inr ⟨x, h1, by simpa [h2] using h.symm⟩
  · simp [h2] at h

/-! ### The end of a body -/

theorem Trace.finish_overflow {t : Trace} {cap : Nat} {em : Emission} (h : t.emissions[cap]? = some em) :
    t.finish cap = .error { code := .outputOverflow, cursor := em.cursor } em.dict := by
  simp [Trace.finish, h]

theorem Trace.finish_success {t : Trace} {cap : Nat} (h : t.emissions.length ≤ cap) (hs : t.stop = none) :
    t.finish cap = .success (t.emissions.map (·.value)) t.dict := by
  simp [Trace.finish, List.getElem?_eq_none h, hs]

theorem Trace.finish_stop {t : Trace} {cap : Nat} {e : CommandError} (h : t.emissions.length ≤ cap)
    (hs : t.stop = some e) : t.finish cap = .error e t.dict := by
  simp [Trace.finish, List.getElem?_eq_none h, hs]

/-- Everything `finish` can answer. -/
theorem Trace.finish_cases (t : Trace) (cap : Nat) :
    (∃ em, t.emissions[cap]? = some em ∧
      t.finish cap = .error { code := .outputOverflow, cursor := em.cursor } em.dict) ∨
    (∃ e, t.emissions.length ≤ cap ∧ t.stop = some e ∧ t.finish cap = .error e t.dict) ∨
    (t.emissions.length ≤ cap ∧ t.stop = none ∧ t.finish cap = .success (t.emissions.map (·.value)) t.dict) := by
  cases h : t.emissions[cap]? with
  | some em => exact .inl ⟨em, rfl, Trace.finish_overflow h⟩
  | none =>
    have hl := List.getElem?_eq_none_iff.mp h
    cases hs : t.stop with
    | some e => exact .inr (.inl ⟨e, hl, rfl, Trace.finish_stop hl hs⟩)
    | none => exact .inr (.inr ⟨hl, rfl, Trace.finish_success hl hs⟩)

@[simp] theorem Trace.after_emissions (es : List Emission) (t : Trace) :
    (t.after es).emissions = es ++ t.emissions := rfl
@[simp] theorem Trace.after_stop (es : List Emission) (t : Trace) : (t.after es).stop = t.stop := rfl
@[simp] theorem Trace.after_dict (es : List Emission) (t : Trace) : (t.after es).dict = t.dict := rfl

/-! ### Completion -/

/-- No completion changes what a command may not change (R103). -/
theorem State.complete_frame (s : State) (c : Command) (b : BodyEnd) : s.CommandFrame (s.complete c b) := by
  cases b <;> simp [State.complete, State.CommandFrame, State.inElem, State.written]

theorem State.complete_done (s : State) (c : Command) (b : BodyEnd) :
    (s.complete c b).done = true ∧ (s.complete c b).engState = .idle := by
  cases b <;> simp [State.complete]

/-- The output of a success is offered, and the elements from its length on are left alone (R44, R103). -/
theorem State.completeOk_outElem (s : State) (out : List Elem) (d : Option DictCount) (j : Nat) :
    (s.completeOk out d).outElem j = if h : j < out.length then out[j] else s.outElem j := by
  unfold State.outElem
  rw [State.completeOk_outBuf, State.completeOk_outFill]
  split
  · next h => rw [Memory.read?_writeFrom_of_lt _ h]; rfl
  · next h => rw [Memory.read?_writeFrom_of_le _ (Nat.not_lt.mp h)]

theorem State.completeOk_succeeded (s : State) {out : List Elem} (d : Option DictCount)
    (h : out.length < 2 ^ 32) : (s.completeOk out d).Succeeded out := by
  refine ⟨rfl, rfl, rfl, rfl, ?_, fun i hi => ?_⟩
  · simpa using h
  · rw [State.completeOk_outElem, dif_pos hi]

theorem State.completeError_failed (s : State) {e : CommandError} (d : Option DictCount)
    (h : e.cursor < 2 ^ 32) : (s.completeError e d).Failed e.code e.cursor := by
  refine ⟨rfl, rfl, ?_, rfl, rfl⟩
  simpa using h

theorem State.completeError_outElem (s : State) (e : CommandError) (d : Option DictCount) (j : Nat) :
    (s.completeError e d).outElem j = Config.freeOutElem s.draws j := by
  simp [State.outElem]

/-- The readbacks after a completion of a command without a dictionary (R72). -/
theorem State.complete_keepsDict (s : State) {c : Command} (hc : c.hasDict = false) (b : BodyEnd) :
    s.KeepsDict (s.complete c b) := by
  cases b <;> simp [State.complete, State.KeepsDict, Command.readback, hc]

/-- The readbacks that the end of a body carries. -/
def BodyEnd.dict : BodyEnd → DictCount
  | .success _ d => d
  | .error _ d => d

/-- The readbacks after a completion of a command with a dictionary (R81, R93). -/
theorem State.complete_showsDict (s : State) {c : Command} (hc : c.hasDict = true) (b : BodyEnd)
    (h1 : b.dict.size < 2 ^ 32) (h2 : b.dict.resets < 2 ^ 32) :
    (s.complete c b).ShowsDict b.dict.size b.dict.resets := by
  cases b <;>
    simp only [BodyEnd.dict] at h1 h2 ⊢ <;>
    simpa [State.complete, State.ShowsDict, Command.readback, hc] using And.intro h1 h2

/-! ### Checks -/

theorem Command.run_of_check {c : Command} {p : Params} {x : List Elem} {e : CommandError}
    (h : c.check p x = some e) : c.run p x = .error e .fresh := by
  simp [Command.run, h]

theorem Command.run_of_pass {c : Command} {p : Params} {x : List Elem} (h : c.check p x = none) :
    c.run p x = (c.body p x).finish p.outDepth := by
  simp [Command.run, h]

theorem elementCheck_eq_none {bad : Elem → Bool} {x : List Elem} :
    elementCheck bad x = none ↔ ∀ e ∈ x, bad e = false := by
  simp [elementCheck]

theorem elementCheck_eq_some {bad : Elem → Bool} {x : List Elem} {e : CommandError} :
    elementCheck bad x = some e ↔
      ∃ j, e = { code := .elementRange, cursor := j } ∧ ∃ h : j < x.length, bad x[j] = true ∧
        ∀ k (_ : k < j), bad (x[k]'(by omega)) = false := by
  simp only [elementCheck, Option.map_eq_some_iff, List.findIdx?_eq_some_iff_getElem]
  constructor
  · rintro ⟨j, ⟨h, h1, h2⟩, rfl⟩
    exact ⟨j, rfl, h, h1, fun k hk => by simpa using h2 k hk⟩
  · rintro ⟨j, rfl, h, h1, h2⟩
    exact ⟨j, ⟨h, h1, fun k hk => by simpa using h2 k hk⟩, rfl⟩

theorem framingCheck_eq_none {p : Params} {n : Nat} : framingCheck p n = none ↔ ¬ framingBad p n := by
  simp only [framingCheck, framingBad]
  split
  · next h => simp [h.1, h.2.1, h.2.2]
  · next h => simp only [true_iff]; rintro ⟨a, b, c⟩; exact h ⟨b, c, a⟩

theorem framingCheck_of_bad {p : Params} {n : Nat} (h : framingBad p n) :
    framingCheck p n = some { code := .framing, cursor := n - 1 } := by
  obtain ⟨a, b, c⟩ := h
  simp [framingCheck, a, b, c]

/-! ### Elements -/

theorem notByte_eq_false {x : Elem} : notByte x = false ↔ x.toNat < 0x100 := by
  simp only [notByte, bne_eq_false_iff_eq]
  rw [← BitVec.toNat_inj]
  simp only [BitVec.extractLsb'_toNat, Nat.shiftRight_eq_div_pow]
  have := x.isLt
  simp
  omega

theorem notCode_eq_false {x : Elem} : notCode x = false ↔ x.toNat < 0x1000 := by
  simp only [notCode, bne_eq_false_iff_eq]
  rw [← BitVec.toNat_inj]
  simp only [BitVec.extractLsb'_toNat, Nat.shiftRight_eq_div_pow]
  have := x.isLt
  simp
  omega

@[simp] theorem byteOf_byteElem (b : Byte) : byteOf (byteElem b) = b := by
  simp only [byteOf, byteElem]
  ext i hi
  simp [BitVec.getElem_extractLsb', hi]
  omega

@[simp] theorem codeOf_codeElem (c : Code) : codeOf (codeElem c) = c := by
  simp only [codeOf, codeElem]
  ext i hi
  simp [BitVec.getElem_extractLsb', hi]
  omega

@[simp] theorem notByte_byteElem (b : Byte) : notByte (byteElem b) = false := by
  rw [notByte_eq_false]
  have := b.isLt
  simp [byteElem]
  omega

@[simp] theorem notCode_codeElem (c : Code) : notCode (codeElem c) = false := by
  rw [notCode_eq_false]
  have := c.isLt
  simp [codeElem]
  omega

@[simp] theorem byteElem_toNat (b : Byte) : (byteElem b).toNat = b.toNat := by
  have := b.isLt
  simp [byteElem]
  omega

@[simp] theorem codeElem_toNat (c : Code) : (codeElem c).toNat = c.toNat := by
  have := c.isLt
  simp [codeElem]
  omega

@[simp] theorem map_byteOf_byteElem (b : List Byte) : (b.map byteElem).map byteOf = b := by
  induction b with
  | nil => rfl
  | cons c b ih => simp only [List.map_cons, byteOf_byteElem, ih]

@[simp] theorem map_codeOf_codeElem (c : List Code) : (c.map codeElem).map codeOf = c := by
  induction c with
  | nil => rfl
  | cons a c ih => simp only [List.map_cons, codeOf_codeElem, ih]

end Sys2Proof.Machine
end

