-- ==== Sys2Proof/Laws/BitPacker.lean ====
section
/-! SUPPORT. The laws of UNPACK and PACK (40_bitpacker.md): their equations by groups, output counts, and cursors. -/

namespace Sys2Proof.Machine

/-! ### UNPACK by groups (R64) -/

@[simp] theorem unpackFrom_nil (r : Residue1) (i : Nat) : unpackFrom r i [] = [] := by simp [unpackFrom]

@[simp] theorem unpackFrom_one (r : Residue1) (i : Nat) (b : Byte) : unpackFrom r i [b] = [] := by simp [unpackFrom]

@[simp] theorem unpackFrom_two (r : Residue1) (i : Nat) (b0 b1 : Byte) :
    unpackFrom r i [b0, b1] = [(second b0 b1, i)] := by simp [unpackFrom]

/-- What a dangling last byte adds (R67). -/
def residueCodes (r : Residue1) (i : Nat) (b2 b3 : Byte) : List (Code × Nat) :=
  if r = .overlap then [(second b2 b3, i)] else []

@[simp] theorem unpackFrom_four (r : Residue1) (i : Nat) (b0 b1 b2 b3 : Byte) :
    unpackFrom r i [b0, b1, b2, b3] =
      (first b0 b1, i) :: (second b1 b2, i + 1) :: residueCodes r (i + 2) b2 b3 := by
  cases r <;> simp [unpackFrom, residueCodes]

theorem unpackFrom_group (r : Residue1) (i : Nat) (b0 b1 b2 : Byte) {rest : List Byte} (h : rest.length ≠ 1) :
    unpackFrom r i (b0 :: b1 :: b2 :: rest) =
      (first b0 b1, i) :: (second b1 b2, i + 1) :: unpackFrom r (i + 3) rest := by
  match rest, h with
  | [], _ => simp [unpackFrom]
  | [_], h => exact absurd rfl h
  | _ :: _ :: _, _ => rw [unpackFrom]; simp

/-- Induction over the byte stream by groups. -/
theorem byteGroups_induction {motive : List Byte → Prop} (nil : motive []) (one : ∀ b, motive [b])
    (two : ∀ b0 b1, motive [b0, b1]) (four : ∀ b0 b1 b2 b3, motive [b0, b1, b2, b3])
    (group : ∀ b0 b1 b2 rest, rest.length ≠ 1 → motive rest → motive (b0 :: b1 :: b2 :: rest)) :
    ∀ b, motive b
  | [] => nil
  | [b] => one b
  | [b0, b1] => two b0 b1
  | [b0, b1, b2] => group b0 b1 b2 [] (by simp) nil
  | [b0, b1, b2, b3] => four b0 b1 b2 b3
  | b0 :: b1 :: b2 :: b3 :: b4 :: rest =>
    group b0 b1 b2 (b3 :: b4 :: rest) (by simp)
      (byteGroups_induction nil one two four group (b3 :: b4 :: rest))

/-- The number of codes (R66). -/
theorem unpackFrom_length (r : Residue1) (b : List Byte) (i : Nat) :
    (unpackFrom r i b).length = unpackCount r b.length := by
  induction b using byteGroups_induction generalizing i with
  | nil => rfl
  | one b => simp [unpackCount]
  | two b0 b1 => simp [unpackCount]
  | four b0 b1 b2 b3 => cases r <;> simp [unpackCount, residueCodes]
  | group b0 b1 b2 rest h ih =>
    rw [unpackFrom_group _ _ _ _ _ h]
    simp only [List.length_cons, ih]
    generalize rest.length = m at h ⊢
    have hd : (m + 1 + 1 + 1) / 3 = m / 3 + 1 := by omega
    have hm : (m + 1 + 1 + 1) % 3 = m % 3 := by omega
    simp only [unpackCount, hd, hm]
    by_cases h2 : m < 2
    · have : m = 0 := by omega
      subst this
      rfl
    · have h3 : ¬ m + 1 + 1 + 1 < 2 := by omega
      simp only [h2, h3, if_false]
      omega

/-- The cursor of code `j` (R64, R104). -/
theorem unpackFrom_cursor (r : Residue1) (b : List Byte) (i j : Nat) (h : j < (unpackFrom r i b).length) :
    (unpackFrom r i b)[j].2 =
      i + (if j < 2 * (b.length / 3) then 3 * (j / 2) + j % 2 else b.length - 2) := by
  induction b using byteGroups_induction generalizing i j with
  | nil => simp at h
  | one b => simp at h
  | two b0 b1 => simp at h; subst h; simp
  | four b0 b1 b2 b3 =>
    have h3 : j < 3 := by
      rw [unpackFrom_length] at h
      simp [unpackCount] at h
      split at h <;> omega
    simp only [unpackFrom_four]
    match j, h3 with
    | 0, _ => simp
    | 1, _ => simp
    | 2, _ =>
      have hr : r = .overlap := by
        by_contra hne
        simp [residueCodes, hne] at h
      simp [residueCodes, hr]
  | group b0 b1 b2 rest hl ih =>
    simp only [unpackFrom_group _ _ _ _ _ hl, List.length_cons] at h ⊢
    match j with
    | 0 => rw [if_pos (by omega)]; simp
    | 1 => rw [if_pos (by omega)]; simp
    | j + 2 =>
      simp only [List.getElem_cons_succ]
      rw [ih (i + 3) j (by omega)]
      have hlen := unpackFrom_length r rest (i + 3)
      unfold unpackCount at hlen
      split at hlen
      · omega
      · split <;> split <;> omega

/-- Codes 2j and 2j + 1 of group `j` (R58, R64). -/
theorem unpackFrom_group_codes (r : Residue1) (b : List Byte) (i j : Nat) (h : j < b.length / 3) :
    ((unpackFrom r i b).map (·.1)).getD (2 * j) 0#12 = first (b.getD (3 * j) 0#8) (b.getD (3 * j + 1) 0#8) ∧
    ((unpackFrom r i b).map (·.1)).getD (2 * j + 1) 0#12 =
      second (b.getD (3 * j + 1) 0#8) (b.getD (3 * j + 2) 0#8) := by
  induction b using byteGroups_induction generalizing i j with
  | nil => simp at h
  | one b => simp at h
  | two b0 b1 => simp at h
  | four b0 b1 b2 b3 =>
    have : j = 0 := by simp at h; omega
    subst this
    simp
  | group b0 b1 b2 rest hl ih =>
    rw [unpackFrom_group _ _ _ _ _ hl]
    cases j with
    | zero => simp
    | succ j =>
      simp only [List.length_cons] at h
      have := ih (i + 3) j (by omega)
      rw [show 2 * (j + 1) = 2 * j + 2 by omega, show 3 * (j + 1) = 3 * j + 3 by omega]
      simpa [show 2 * j + 2 + 1 = 2 * j + 1 + 2 by omega, show 3 * j + 3 + 1 = 3 * j + 1 + 3 by omega,
        show 3 * j + 3 + 2 = 3 * j + 2 + 3 by omega] using this

/-- The code past the groups, if there is one, comes from the last two bytes (R59, R64, R67). -/
theorem unpackFrom_tail_code (r : Residue1) (b : List Byte) (i : Nat)
    (h : 2 * (b.length / 3) < (unpackFrom r i b).length) :
    ((unpackFrom r i b).map (·.1)).getD (2 * (b.length / 3)) 0#12 =
      second (b.getD (b.length - 2) 0#8) (b.getD (b.length - 1) 0#8) := by
  induction b using byteGroups_induction generalizing i with
  | nil => simp at h
  | one b => simp at h
  | two b0 b1 => simp
  | four b0 b1 b2 b3 =>
    have hr : r = .overlap := by
      by_contra hne
      simp [residueCodes, hne] at h
    simp [residueCodes, hr]
  | group b0 b1 b2 rest hl ih =>
    rw [unpackFrom_group _ _ _ _ _ hl] at h ⊢
    simp only [List.length_cons] at h ⊢
    have hd : (rest.length + 1 + 1 + 1) / 3 = rest.length / 3 + 1 := by omega
    rw [hd] at h ⊢
    have := ih (i + 3) (by omega)
    have hlen := unpackFrom_length r rest (i + 3)
    have h2 : 2 ≤ rest.length := by
      by_contra hlt
      have : unpackCount r rest.length = 0 := by simp [unpackCount]; omega
      omega
    obtain ⟨m, hm⟩ : ∃ m, rest.length = m + 2 := ⟨rest.length - 2, by omega⟩
    rw [show 2 * (rest.length / 3 + 1) = 2 * (rest.length / 3) + 2 by omega]
    rw [show rest.length + 1 + 1 + 1 - 2 = (rest.length - 2) + 3 by omega,
      show rest.length + 1 + 1 + 1 - 1 = (rest.length - 1) + 3 by omega]
    simpa using this

/-! ### PACK by groups (R68) -/

@[simp] theorem packFrom_nil (i : Nat) : packFrom i [] = [] := rfl

@[simp] theorem packFrom_one (i : Nat) (c : Code) : packFrom i [c] = [(tailT0 c, i), (tailT1 c, i)] := rfl

@[simp] theorem packFrom_group (i : Nat) (c0 c1 : Code) (rest : List Code) :
    packFrom i (c0 :: c1 :: rest) =
      (groupB0 c0, i) :: (groupB1 c0 c1, i) :: (groupB2 c1, i) :: packFrom (i + 2) rest := rfl

/-- Induction over the code stream by groups. -/
theorem codeGroups_induction {motive : List Code → Prop} (nil : motive []) (one : ∀ c, motive [c])
    (group : ∀ c0 c1 rest, motive rest → motive (c0 :: c1 :: rest)) : ∀ c, motive c
  | [] => nil
  | [c] => one c
  | c0 :: c1 :: rest => group c0 c1 rest (codeGroups_induction nil one group rest)

/-- The number of bytes (R69). -/
theorem packFrom_length (c : List Code) (i : Nat) : (packFrom i c).length = packCount c.length := by
  induction c using codeGroups_induction generalizing i with
  | nil => rfl
  | one c => simp [packCount]
  | group c0 c1 rest ih =>
    simp only [packFrom_group, List.length_cons, ih, packCount]
    omega

/-- The cursor of byte `j` (R68, R104). -/
theorem packFrom_cursor (c : List Code) (i j : Nat) (h : j < (packFrom i c).length) :
    (packFrom i c)[j].2 = i + (if j < 3 * (c.length / 2) then 2 * (j / 3) else c.length - 1) := by
  induction c using codeGroups_induction generalizing i j with
  | nil => simp at h
  | one c =>
    have : j = 0 ∨ j = 1 := by simp at h; omega
    rcases this with rfl | rfl <;> simp
  | group c0 c1 rest ih =>
    simp only [packFrom_group, List.length_cons] at h ⊢
    match j with
    | 0 => rw [if_pos (by omega)]; simp
    | 1 => rw [if_pos (by omega)]; simp
    | 2 => rw [if_pos (by omega)]; simp
    | j + 3 =>
      simp only [List.getElem_cons_succ]
      rw [ih (i + 2) j (by omega)]
      have hlen := packFrom_length rest (i + 2)
      unfold packCount at hlen
      split <;> split <;> omega

/-- The three bytes of group `j` (R58, R68). -/
theorem packFrom_group_bytes (c : List Code) (i j : Nat) (h : j < c.length / 2) :
    ((packFrom i c).map (·.1)).getD (3 * j) 0#8 = groupB0 (c.getD (2 * j) 0#12) ∧
    ((packFrom i c).map (·.1)).getD (3 * j + 1) 0#8 = groupB1 (c.getD (2 * j) 0#12) (c.getD (2 * j + 1) 0#12) ∧
    ((packFrom i c).map (·.1)).getD (3 * j + 2) 0#8 = groupB2 (c.getD (2 * j + 1) 0#12) := by
  induction c using codeGroups_induction generalizing i j with
  | nil => simp at h
  | one c => simp at h
  | group c0 c1 rest ih =>
    cases j with
    | zero => simp
    | succ j =>
      simp only [List.length_cons] at h
      have := ih (i + 2) j (by omega)
      rw [packFrom_group, show 3 * (j + 1) = 3 * j + 3 by omega, show 2 * (j + 1) = 2 * j + 2 by omega]
      simpa [show 3 * j + 3 + 1 = 3 * j + 1 + 3 by omega, show 3 * j + 3 + 2 = 3 * j + 2 + 3 by omega,
        show 2 * j + 2 + 1 = 2 * j + 1 + 2 by omega] using this

/-- The two bytes of a last odd code (R59, R68). -/
theorem packFrom_tail_bytes (c : List Code) (i : Nat) (h : c.length % 2 = 1) :
    ((packFrom i c).map (·.1)).getD (packCount c.length - 2) 0#8 = tailT0 (c.getD (c.length - 1) 0#12) ∧
    ((packFrom i c).map (·.1)).getD (packCount c.length - 1) 0#8 = tailT1 (c.getD (c.length - 1) 0#12) := by
  induction c using codeGroups_induction generalizing i with
  | nil => simp at h
  | one c => simp [packCount]
  | group c0 c1 rest ih =>
    simp only [List.length_cons] at h
    have := ih (i + 2) (by omega)
    rw [packFrom_group]
    simp only [List.length_cons, packCount] at *
    generalize hm : rest.length = m at *
    rw [show 3 * ((m + 1 + 1) / 2) + 2 * ((m + 1 + 1) % 2) - 2 = 3 * (m / 2) + 2 * (m % 2) - 2 + 3 by omega,
      show 3 * ((m + 1 + 1) / 2) + 2 * ((m + 1 + 1) % 2) - 1 = 3 * (m / 2) + 2 * (m % 2) - 1 + 3 by omega,
      show m + 1 + 1 - 1 = (m - 1) + 2 by omega]
    simpa using this

/-! ### The laws of one group and of the tail (R58, R59, R71) -/

theorem first_groupB (c0 c1 : Code) : first (groupB0 c0) (groupB1 c0 c1) = c0 := by
  apply BitVec.eq_of_getLsbD_eq
  intro i hi
  simp only [first, groupB0, groupB1, BitVec.getLsbD_append, BitVec.getLsbD_extractLsb']
  by_cases h : i < 4
  · simp [h]
  · simp [h, show i - 4 < 8 by omega, show 4 + (i - 4) = i by omega]

theorem second_groupB (c0 c1 : Code) : second (groupB1 c0 c1) (groupB2 c1) = c1 := by
  apply BitVec.eq_of_getLsbD_eq
  intro i hi
  simp only [second, groupB1, groupB2, BitVec.getLsbD_append, BitVec.getLsbD_extractLsb']
  by_cases h : i < 8
  · simp [h]
  · simp [h, show i - 8 < 4 by omega, show 8 + (i - 8) = i by omega]

theorem second_tailT (c : Code) : second (tailT0 c) (tailT1 c) = c := by
  apply BitVec.eq_of_getLsbD_eq
  intro i hi
  simp only [second, tailT0, tailT1, BitVec.getLsbD_append, BitVec.getLsbD_extractLsb']
  by_cases h : i < 8
  · simp [h]
  · simp [h, show i - 8 < 4 by omega, show 8 + (i - 8) = i by omega]

theorem groupB0_first (p q : Byte) : groupB0 (first p q) = p := by
  apply BitVec.eq_of_getLsbD_eq
  intro i hi
  simp only [first, groupB0, BitVec.getLsbD_append, BitVec.getLsbD_extractLsb']
  simp [hi]

theorem groupB1_first_second (p q t : Byte) : groupB1 (first p q) (second q t) = q := by
  apply BitVec.eq_of_getLsbD_eq
  intro i hi
  simp only [first, second, groupB1, BitVec.getLsbD_append, BitVec.getLsbD_extractLsb']
  by_cases h : i < 4
  · simp [h]
  · simp [h, show i - 4 < 4 by omega, show 4 + (i - 4) = i by omega]

theorem groupB2_second (q t : Byte) : groupB2 (second q t) = t := by
  apply BitVec.eq_of_getLsbD_eq
  intro i hi
  simp only [second, groupB2, BitVec.getLsbD_append, BitVec.getLsbD_extractLsb']
  simp [hi]

theorem tailT0_second (p q : Byte) : tailT0 (second p q) = p &&& 0x0F#8 := by
  apply BitVec.eq_of_getLsbD_eq
  intro i hi
  simp only [second, tailT0, BitVec.getLsbD_append, BitVec.getLsbD_extractLsb', BitVec.getLsbD_and]
  have h8 : i = 0 ∨ i = 1 ∨ i = 2 ∨ i = 3 ∨ i = 4 ∨ i = 5 ∨ i = 6 ∨ i = 7 := by omega
  rcases h8 with rfl | rfl | rfl | rfl | rfl | rfl | rfl | rfl <;> simp

theorem tailT1_second (p q : Byte) : tailT1 (second p q) = q := by
  apply BitVec.eq_of_getLsbD_eq
  intro i hi
  simp only [second, tailT1, BitVec.getLsbD_append, BitVec.getLsbD_extractLsb']
  simp [hi]

/-! ### The bodies -/

@[simp] theorem plainTrace_stop (es : List (Elem × Nat)) : (plainTrace es).stop = none := rfl

@[simp] theorem plainTrace_values (es : List (Elem × Nat)) :
    (plainTrace es).emissions.map (·.value) = es.map (·.1) := by
  simp [plainTrace, Function.comp_def]

@[simp] theorem plainTrace_length (es : List (Elem × Nat)) : (plainTrace es).emissions.length = es.length := by
  simp [plainTrace]

theorem unpackTrace_values (r : Residue1) (b : List Byte) :
    (unpackTrace r b).emissions.map (·.value) = (unpackCodes r b).map codeElem := by
  simp [unpackTrace, unpackCodes, Function.comp_def]

theorem packTrace_values (c : List Code) :
    (packTrace c).emissions.map (·.value) = (packBytes c).map byteElem := by
  simp [packTrace, packBytes, Function.comp_def]

theorem unpackTrace_length (r : Residue1) (b : List Byte) :
    (unpackTrace r b).emissions.length = unpackCount r b.length := by
  simp [unpackTrace, unpackFrom_length]

theorem packTrace_length (c : List Code) : (packTrace c).emissions.length = packCount c.length := by
  simp [packTrace, packFrom_length]

/-- The checks of UNPACK and DECODE_PACKED pass on bytes that raise no framing error. -/
theorem packedCheck_bytes {p : Params} {b : List Byte} (h : ¬ framingBad p b.length) :
    packedCheck p (b.map byteElem) = none := by
  rw [packedCheck, List.length_map, framingCheck_eq_none.mpr h]
  simp [elementCheck_eq_none]

end Sys2Proof.Machine
end

