-- ==== Sys2Proof/Laws/Dictionary.lean ====
section
/-! SUPPORT. The laws of the dictionary (10_state.md R27 to R29, R32): its initial entries, and a dictionary that has
learned the entries of an epoch. -/

namespace Sys2Proof.Machine

/-! ### The initial dictionary (R29) -/

@[simp] theorem Dict.size_init : Dict.init.size = 256 := by simp [Dict.init, Dict.size]

@[simp] theorem Dict.length_init : Dict.init.length = 256 := by simp [Dict.init]

theorem Dict.getElem?_init {k : Nat} (h : k < 256) : Dict.init[k]? = some [BitVec.ofNat 8 k] := by
  simp [Dict.init, h]

theorem Dict.mem_init {p : Pattern} : p ∈ Dict.init ↔ ∃ c : Byte, p = [c] := by
  simp only [Dict.init, List.mem_map, List.mem_range]
  constructor
  · rintro ⟨b, -, rfl⟩; exact ⟨_, rfl⟩
  · rintro ⟨c, rfl⟩
    have := c.isLt
    exact ⟨c.toNat, by omega, by simp⟩

/-- A one-byte pattern has its byte as its code. -/
theorem Dict.idxOf_init (c : Byte) : Dict.init.idxOf [c] = c.toNat := by
  have hmem : [c] ∈ Dict.init := Dict.mem_init.mpr ⟨c, rfl⟩
  have hlt := List.idxOf_lt_length_iff.mpr hmem
  have hget := List.getElem_idxOf hlt
  simp only [Dict.length_init] at hlt
  simp only [Dict.init, List.getElem_map, List.getElem_range, List.cons.injEq, and_true] at hget
  have := congrArg BitVec.toNat hget
  simp only [BitVec.toNat_ofNat] at this
  unfold Dict.init at hlt ⊢
  omega

/-! ### First bytes -/

@[simp] theorem firstOf_nil : firstOf [] = [] := rfl
@[simp] theorem firstOf_cons (c : Byte) (p : Pattern) : firstOf (c :: p) = [c] := by simp [firstOf]

theorem firstOf_append {p : Pattern} (h : p ≠ []) (q : Pattern) : firstOf (p ++ q) = firstOf p := by
  cases p with
  | nil => exact absurd rfl h
  | cons c p => simp

theorem length_firstOf {p : Pattern} (h : p ≠ []) : (firstOf p).length = 1 := by
  cases p with
  | nil => exact absurd rfl h
  | cons c p => simp

/-! ### A dictionary that has learned -/

/-- The initial dictionary with the entries of the misses `start`, `start + 1`, ..., `n` of them (R79, R89, R95). -/
def learned (P : List Pattern) (start n : Nat) : Dict :=
  Dict.init ++ (List.range' start n).map (missEntry P)

@[simp] theorem learned_zero (P : List Pattern) (start : Nat) : learned P start 0 = Dict.init := by simp [learned]

@[simp] theorem size_learned (P : List Pattern) (start n : Nat) : (learned P start n).size = 256 + n := by
  simp [learned, Dict.size]

/-- Registering the next entry. -/
theorem register_learned (P : List Pattern) (start n : Nat) :
    (learned P start n).register (missEntry P (start + n)) = learned P start (n + 1) := by
  simp [learned, Dict.register, List.range'_concat]

theorem learned_literal (P : List Pattern) (start n : Nat) {k : Nat} (h : k < 256) :
    (learned P start n)[k]? = some [BitVec.ofNat 8 k] := by
  rw [learned, List.getElem?_append_left (by simpa using h), Dict.getElem?_init h]

theorem learned_entry (P : List Pattern) (start n : Nat) {r : Nat} (h : r < n) :
    (learned P start n)[256 + r]? = some (missEntry P (start + r)) := by
  rw [learned, List.getElem?_append_right (by simp)]
  simp [h]

theorem mem_learned {P : List Pattern} {start n : Nat} {p : Pattern} :
    p ∈ learned P start n ↔ (∃ c : Byte, p = [c]) ∨ ∃ j, start ≤ j ∧ j < start + n ∧ p = missEntry P j := by
  simp only [learned, List.mem_append, Dict.mem_init, List.mem_map, List.mem_range']
  constructor
  · rintro (h | ⟨j, ⟨i, hi, rfl⟩, rfl⟩)
    · exact .inl h
    · exact .inr ⟨start + 1 * i, by omega, by omega, rfl⟩
  · rintro (h | ⟨j, h1, h2, rfl⟩)
    · exact .inl h
    · exact .inr ⟨j, ⟨j - start, by omega, by omega⟩, rfl⟩

theorem known_learned {P : List Pattern} {start n : Nat} {p : Pattern} :
    (learned P start n).known p = true ↔
      (∃ c : Byte, p = [c]) ∨ ∃ j, start ≤ j ∧ j < start + n ∧ p = missEntry P j := by
  rw [Dict.known, List.contains_iff_mem, mem_learned]

theorem code_learned_literal (P : List Pattern) (start n : Nat) (c : Byte) :
    (learned P start n).code [c] = c.toNat := by
  rw [Dict.code, learned, List.idxOf_append, if_pos (Dict.mem_init.mpr ⟨c, rfl⟩), Dict.idxOf_init]

/-- The code of an entry that no earlier entry equals and that is no literal. -/
theorem code_learned_entry {P : List Pattern} {start n j : Nat} (h1 : start ≤ j) (h2 : j < start + n)
    (hlit : ∀ c : Byte, missEntry P j ≠ [c]) (hne : ∀ j', start ≤ j' → j' < j → missEntry P j' ≠ missEntry P j) :
    (learned P start n).code (missEntry P j) = 256 + (j - start) := by
  rw [Dict.code, learned, List.idxOf_append, if_neg (by rw [Dict.mem_init]; rintro ⟨c, h⟩; exact hlit c h)]
  rw [Dict.length_init, Nat.add_comm]
  congr 1
  obtain ⟨r, rfl⟩ : ∃ r, j = start + r := ⟨j - start, by omega⟩
  have hr : r < n := by omega
  rw [show start + r - start = r by omega]
  generalize hl : (List.range' start n).map (missEntry P) = l
  have hlen : r < l.length := by simp [← hl, hr]
  have hget : ∀ k (h : k < l.length), l[k] = missEntry P (start + k) := by
    intro k h; subst hl; simp
  have hmem : missEntry P (start + r) ∈ l := hget r hlen ▸ List.getElem_mem hlen
  have hidx := List.idxOf_lt_length_iff.mpr hmem
  have hi := List.getElem_idxOf hidx
  rw [hget] at hi
  rcases Nat.lt_trichotomy (l.idxOf (missEntry P (start + r))) r with h | h | h
  · exact absurd hi (hne _ (by omega) (by omega))
  · exact h
  · have := List.not_of_lt_findIdx h
    simp [hget] at this

end Sys2Proof.Machine
end

