-- ==== Sys2Proof/Laws/Decoder.lean ====
section
/-! SUPPORT. The laws of DECODE's body (41_decode.md R73 to R83): the working state before and after each accepted
code, the run over a prefix of accepted codes, and the bounds that hold for every code stream. -/

namespace Sys2Proof.Machine

/-! ### One accepted code -/

/-- `P` holds at `i` the pattern that code `k` stands for there: one row of `DecodesTo`. -/
def PatternAt (P : List Pattern) (i k : Nat) : Prop :=
  P.getD i [] =
    if k < 256 then [BitVec.ofNat 8 k]
    else if k = 256 + (i - 1) % 3840 then P.getD (i - 1) [] ++ firstOf (P.getD (i - 1) [])
    else missEntry P (3840 * ((i - 1) / 3840) + (k - 256))

theorem decodesTo_iff {ks : List Nat} {P : List Pattern} :
    DecodesTo ks P ↔ P.length = ks.length ∧ ∀ i (h : i < ks.length), PatternAt P i ks[i] := Iff.rfl

/-- The working state before code `i` (`i >= 1`) of a stream whose patterns are `P`. -/
def workAt (P : List Pattern) (i : Nat) : DecWork where
  table := learned P (3840 * ((i - 2) / 3840)) (i - 1 - 3840 * ((i - 2) / 3840))
  prev := P.getD (i - 1) []
  resets := (i - 2) / 3840

/-- The same after the reset test of R76. -/
def workBefore (P : List Pattern) (i : Nat) : DecWork where
  table := learned P (3840 * ((i - 1) / 3840)) ((i - 1) % 3840)
  prev := P.getD (i - 1) []
  resets := (i - 1) / 3840

/-- The readbacks while code `i` is handled (R81, R83). -/
def decCount (i : Nat) : DictCount := { size := 256 + (i - 1) % 3840, resets := (i - 1) / 3840 }

@[simp] theorem workBefore_count (P : List Pattern) (i : Nat) : (workBefore P i).count = decCount i := by
  simp [workBefore, DecWork.count, decCount]

theorem workAt_count (P : List Pattern) (i : Nat) :
    (workAt P i).count = { size := 256 + (i - 1 - 3840 * ((i - 2) / 3840)), resets := (i - 2) / 3840 } := by
  simp [workAt, DecWork.count]

theorem workAt_beforeCode (P : List Pattern) {i : Nat} (hi : 1 ≤ i) : (workAt P i).beforeCode = workBefore P i := by
  unfold DecWork.beforeCode
  simp only [workAt, size_learned]
  split
  · have h1 : (i - 1) % 3840 = 0 := by omega
    have h2 : (i - 2) / 3840 + 1 = (i - 1) / 3840 := by omega
    simp [workBefore, h1, h2]
  · have h1 : i - 1 - 3840 * ((i - 2) / 3840) = (i - 1) % 3840 := by omega
    have h2 : (i - 2) / 3840 = (i - 1) / 3840 := by omega
    rw [workBefore, ← h1, ← h2]

/-- Classification of an accepted code (R77) finds its pattern. -/
theorem workBefore_entry {P : List Pattern} {i k : Nat} (hi : 1 ≤ i) (hk : codeAllowed i k) (hp : PatternAt P i k) :
    (workBefore P i).entry? k = some (P.getD i []) := by
  rw [codeAllowed, if_neg (by omega)] at hk
  rw [hp]
  simp only [DecWork.entry?, workBefore, size_learned, Dict.pattern?]
  by_cases h1 : k < 256
  · rw [if_pos (by omega), if_pos h1, learned_literal _ _ _ h1]
  · rw [if_neg h1]
    by_cases h2 : k = 256 + (i - 1) % 3840
    · rw [if_neg (by omega), if_pos h2, if_pos h2]
    · have hr := learned_entry P (3840 * ((i - 1) / 3840)) ((i - 1) % 3840) (r := k - 256) (by omega)
      rw [Nat.add_sub_cancel' (by omega)] at hr
      rw [if_pos (by omega), if_neg h2, hr]

/-- A code that is not accepted is found invalid. -/
theorem workBefore_no_entry (P : List Pattern) {i k : Nat} (hi : 1 ≤ i) (hk : ¬ codeAllowed i k) :
    (workBefore P i).entry? k = none := by
  rw [codeAllowed, if_neg (by omega)] at hk
  simp only [DecWork.entry?, workBefore, size_learned]
  rw [if_neg (by omega), if_neg (by omega)]

/-- Registration and the new PREV (R79, R80). -/
theorem workBefore_learn (P : List Pattern) {i : Nat} (hi : 1 ≤ i) :
    (workBefore P i).learn (P.getD i []) = workAt P (i + 1) := by
  have h : missEntry P (3840 * ((i - 1) / 3840) + (i - 1) % 3840) = P.getD (i - 1) [] ++ firstOf (P.getD i []) := by
    rw [Nat.div_add_mod, missEntry, Nat.sub_add_cancel hi]
  simp only [DecWork.learn, workBefore, workAt, ← h, register_learned, Nat.add_sub_cancel]
  rw [show i + 1 - 2 = i - 1 by omega]
  congr 2
  omega

/-! ### A run of accepted codes -/

/-- What the codes `0 .. m-1` emit (R75, R78). -/
def decEmissions (P : List Pattern) (m : Nat) : List Emission :=
  (List.range m).flatMap (fun i => emitPattern (P.getD i []) i (decCount i))

theorem decEmissions_succ (P : List Pattern) (m : Nat) :
    decEmissions P (m + 1) = decEmissions P m ++ emitPattern (P.getD m []) m (decCount m) := by
  simp [decEmissions, List.range_succ]

theorem emitPattern_length (e : Pattern) (i : Nat) (d : DictCount) : (emitPattern e i d).length = e.length := by
  simp [emitPattern]

theorem emitPattern_values (e : Pattern) (i : Nat) (d : DictCount) :
    (emitPattern e i d).map (·.value) = e.map byteElem := by
  simp [emitPattern, Function.comp_def]

theorem emitPattern_mem {e : Pattern} {i : Nat} {d : DictCount} {em : Emission} (h : em ∈ emitPattern e i d) :
    em.cursor = i ∧ em.dict = d := by
  simp only [emitPattern, List.mem_map] at h
  obtain ⟨b, -, rfl⟩ := h
  exact ⟨rfl, rfl⟩

theorem take_succ_getD (P : List Pattern) {m : Nat} (h : m < P.length) : P.take (m + 1) = P.take m ++ [P.getD m []] := by
  rw [List.take_add_one, List.getElem?_eq_getElem h]
  simp [h]

theorem decEmissions_values (P : List Pattern) {m : Nat} (h : m ≤ P.length) :
    (decEmissions P m).map (·.value) = (P.take m).flatten.map byteElem := by
  induction m with
  | zero => simp [decEmissions]
  | succ m ih =>
    rw [decEmissions_succ, List.map_append, ih (by omega), emitPattern_values, take_succ_getD P (by omega)]
    simp

theorem decEmissions_length (P : List Pattern) {m : Nat} (h : m ≤ P.length) :
    (decEmissions P m).length = (P.take m).flatten.length := by
  have := congrArg List.length (decEmissions_values P h)
  simpa only [List.length_map] using this

@[simp] theorem Trace.after_nil (t : Trace) : t.after [] = t := rfl
theorem Trace.after_after (t : Trace) (es fs : List Emission) : (t.after fs).after es = t.after (es ++ fs) := by
  simp [Trace.after]

/-- One accepted code (R76 to R80). -/
theorem decodeLoop_step {P : List Pattern} {i k : Nat} (ks : List Nat) (hi : 1 ≤ i) (hk : codeAllowed i k)
    (hp : PatternAt P i k) :
    decodeLoop (k :: ks) i (workAt P i) =
      (decodeLoop ks (i + 1) (workAt P (i + 1))).after (emitPattern (P.getD i []) i (decCount i)) := by
  simp only [decodeLoop, workAt_beforeCode P hi, workBefore_entry hi hk hp, workBefore_learn P hi,
    workBefore_count]

/-- A code that is not accepted (R77, R83). -/
theorem decodeLoop_invalid (P : List Pattern) {i k : Nat} (ks : List Nat) (hi : 1 ≤ i) (hk : ¬ codeAllowed i k) :
    decodeLoop (k :: ks) i (workAt P i) =
      { emissions := [], stop := some { code := .invalidCode, cursor := i }, dict := decCount i } := by
  simp only [decodeLoop, workAt_beforeCode P hi, workBefore_no_entry P hi hk, workBefore_count]

/-- The run over a non-empty prefix of accepted codes (R73). -/
theorem decodeTrace_run {ks : List Nat} {P : List Pattern} {m : Nat} (hm : 1 ≤ m) (hle : m ≤ ks.length)
    (hv : ∀ i (h : i < ks.length), i < m → codeAllowed i ks[i] ∧ PatternAt P i ks[i]) :
    decodeTrace ks = (decodeLoop (ks.drop m) m (workAt P m)).after (decEmissions P m) := by
  induction m, hm using Nat.le_induction with
  | base =>
    cases ks with
    | nil => simp at hle
    | cons k ks =>
      obtain ⟨h1, h2⟩ := hv 0 (by simp) (by omega)
      rw [codeAllowed, if_pos rfl] at h1
      simp only [List.getElem_cons_zero] at h1 h2
      rw [PatternAt, if_pos h1, List.getD_eq_getElem?_getD] at h2
      simp [decodeTrace, h1, workAt, decEmissions, h2, DecWork.count, decCount]
  | succ m hm ih =>
    rw [ih (by omega) (fun i h hi => hv i h (by omega)), List.drop_eq_getElem_cons (by omega)]
    obtain ⟨h1, h2⟩ := hv m (by omega) (by omega)
    rw [decodeLoop_step _ hm h1 h2, Trace.after_after, decEmissions_succ]

/-- The whole run over a non-empty accepted stream. -/
theorem decodeTrace_accepted {ks : List Nat} {P : List Pattern} (hne : ks ≠ []) (hv : CodesValid ks)
    (hd : DecodesTo ks P) :
    decodeTrace ks =
      { emissions := decEmissions P ks.length
        stop := none
        dict := { size := 256 + (ks.length - 1 - 3840 * ((ks.length - 2) / 3840)),
                  resets := (ks.length - 2) / 3840 } } := by
  have h := (decodesTo_iff.mp hd).2
  rw [decodeTrace_run (m := ks.length) (List.length_pos_iff.mpr hne) (le_refl _) fun i hi _ => ⟨hv i hi, h i hi⟩]
  simp [decodeLoop, workAt_count, Trace.after]

/-- The run that stops at the first code that is not accepted. -/
theorem decodeTrace_invalid {ks : List Nat} {P : List Pattern} {i : Nat} (h : i < ks.length)
    (hbad : ¬ codeAllowed i ks[i]) (hv : ∀ j (h : j < ks.length), j < i → codeAllowed j ks[j] ∧ PatternAt P j ks[j]) :
    decodeTrace ks =
      { emissions := decEmissions P i, stop := some { code := .invalidCode, cursor := i }, dict := decCount i } := by
  by_cases hi : 1 ≤ i
  · rw [decodeTrace_run hi (by omega) hv, List.drop_eq_getElem_cons h, decodeLoop_invalid P _ hi hbad]
    simp [Trace.after]
  · obtain rfl : i = 0 := by omega
    cases ks with
    | nil => simp at h
    | cons k ks =>
      rw [codeAllowed, if_pos rfl, List.getElem_cons_zero] at hbad
      simp [decodeTrace, hbad, decEmissions, DictCount.fresh, decCount]

/-! ### Every accepted stream has its patterns -/

/-- An accepted code's pattern depends only on the patterns before it. -/
theorem patternAt_congr {P Q : List Pattern} {i k : Nat} (hk : codeAllowed i k)
    (h : ∀ j, j ≤ i → P.getD j [] = Q.getD j []) (hp : PatternAt P i k) : PatternAt Q i k := by
  unfold PatternAt at *
  rw [← h i (le_refl _), hp, ← h (i - 1) (by omega)]
  by_cases h1 : k < 256
  · rw [if_pos h1, if_pos h1]
  · rw [if_neg h1, if_neg h1]
    by_cases h2 : k = 256 + (i - 1) % 3840
    · rw [if_pos h2, if_pos h2]
    · rw [if_neg h2, if_neg h2]
      unfold codeAllowed at hk
      split at hk
      · omega
      · rw [missEntry, missEntry, h _ (by omega), h _ (by omega)]

theorem getD_append_left (P : List Pattern) (q : Pattern) {j : Nat} (h : j < P.length) :
    (P ++ [q]).getD j [] = P.getD j [] := by
  simp [List.getD, List.getElem?_append_left h]

theorem exists_decodesTo {ks : List Nat} (hv : CodesValid ks) : ∃ P, DecodesTo ks P := by
  induction ks using List.reverseRecOn with
  | nil => exact ⟨[], by simp [DecodesTo]⟩
  | append_singleton ks k ih =>
    have hv' : CodesValid ks := fun i h => by
      have := hv i (by simp; omega)
      rwa [List.getElem_append_left h] at this
    obtain ⟨P, hP⟩ := ih hv'
    obtain ⟨hl, hp⟩ := decodesTo_iff.mp hP
    have hk : codeAllowed ks.length k := by simpa using hv ks.length (by simp)
    obtain ⟨q, hq⟩ : ∃ q : Pattern, q =
      if k < 256 then [BitVec.ofNat 8 k]
      else if k = 256 + (ks.length - 1) % 3840 then P.getD (ks.length - 1) [] ++ firstOf (P.getD (ks.length - 1) [])
      else missEntry P (3840 * ((ks.length - 1) / 3840) + (k - 256)) := ⟨_, rfl⟩
    have hgt : ∀ j, j < ks.length → (P ++ [q]).getD j [] = P.getD j [] :=
      fun j hj => getD_append_left P q (by omega)
    refine ⟨P ++ [q], decodesTo_iff.mpr ⟨by simp [hl], fun i h => ?_⟩⟩
    by_cases hi : i < ks.length
    · rw [List.getElem_append_left hi]
      exact patternAt_congr (hv' i hi) (fun j hj => (hgt j (by omega)).symm) (hp i hi)
    · obtain rfl : i = ks.length := by simp at h; omega
      rw [List.getElem_append_right (le_refl _)]
      simp only [Nat.sub_self, List.getElem_cons_zero]
      unfold PatternAt
      rw [show (P ++ [q]).getD ks.length [] = q by simp [List.getD, ← hl]]
      refine hq.trans ?_
      by_cases h1 : k < 256
      · rw [if_pos h1, if_pos h1]
      · rw [if_neg h1, if_neg h1]
        unfold codeAllowed at hk
        split at hk
        · omega
        · by_cases h2 : k = 256 + (ks.length - 1) % 3840
          · rw [if_pos h2, if_pos h2, hgt _ (by omega)]
          · rw [if_neg h2, if_neg h2, missEntry, missEntry, hgt _ (by omega), hgt _ (by omega)]

/-! ### Bounds for every code stream -/

/-- Readbacks that a dictionary can show after at most `n` registrations. -/
def DictCount.Bounded (d : DictCount) (n : Nat) : Prop :=
  256 ≤ d.size ∧ d.size ≤ 4096 ∧ 3840 * d.resets + d.size ≤ 256 + n

/-- Every cursor and readback of a trace is bounded, and it stops on INVALID_CODE only. -/
def Trace.Bounded (t : Trace) (n : Nat) : Prop :=
  (∀ em ∈ t.emissions, em.cursor ≤ n ∧ em.dict.Bounded n) ∧ (∀ e, t.stop = some e → e.code = .invalidCode ∧ e.cursor ≤ n) ∧
    t.dict.Bounded n

theorem Trace.Bounded_after {t : Trace} {n : Nat} {es : List Emission} (h : t.Bounded n)
    (he : ∀ em ∈ es, em.cursor ≤ n ∧ em.dict.Bounded n) : (t.after es).Bounded n := by
  refine ⟨fun em hm => ?_, h.2.1, h.2.2⟩
  rcases List.mem_append.mp hm with hm | hm
  · exact he em hm
  · exact h.1 em hm

theorem beforeCode_bound {w : DecWork} {i : Nat} (h : w.count.Bounded i) :
    256 ≤ w.beforeCode.count.size ∧ w.beforeCode.count.size ≤ 4095 ∧
      3840 * w.beforeCode.count.resets + w.beforeCode.count.size ≤ 256 + i := by
  obtain ⟨h1, h2, h3⟩ := h
  simp only [DecWork.count] at *
  unfold DecWork.beforeCode
  split
  · simp only [Dict.size_init]; omega
  · omega

theorem decodeLoop_bound (ks : List Nat) (i n : Nat) (w : DecWork) (hn : i + ks.length ≤ n + 1) (hi : 1 ≤ i)
    (h : w.count.Bounded (i - 1)) : (decodeLoop ks i w).Bounded n := by
  induction ks generalizing i w with
  | nil =>
    obtain ⟨h1, h2, h3⟩ := h
    simp only [List.length_nil] at hn
    exact ⟨by simp [decodeLoop], by simp [decodeLoop], h1, h2, by simp only [decodeLoop]; omega⟩
  | cons k ks ih =>
    simp only [List.length_cons] at hn
    obtain ⟨h1, h2, h3⟩ := beforeCode_bound h
    have hb : w.beforeCode.count.Bounded n := ⟨h1, by omega, by omega⟩
    simp only [decodeLoop]
    cases he : w.beforeCode.entry? k with
    | none => exact ⟨by simp, by simp; omega, hb⟩
    | some e =>
      refine Trace.Bounded_after (ih (i + 1) _ (by omega) (by omega) ?_) fun em hm => ?_
      · simp only [DecWork.count, DecWork.learn, Dict.register, Dict.size] at *
        simp only [DictCount.Bounded, List.length_append, List.length_singleton]
        omega
      · obtain ⟨e1, e2⟩ := emitPattern_mem hm
        rw [e1, e2]
        exact ⟨by omega, hb⟩

/-- Cursors are at most `n - 1` and readbacks those of at most `n - 1` registrations, for any stream of `n` codes
(R81, R83). -/
theorem decodeTrace_bound (ks : List Nat) : (decodeTrace ks).Bounded (ks.length - 1) := by
  have hf : ∀ n, DictCount.Bounded { size := 256, resets := 0 } n := fun n => ⟨by simp, by simp, by simp⟩
  cases ks with
  | nil => exact ⟨by simp [decodeTrace], by simp [decodeTrace], hf _⟩
  | cons k ks =>
    simp only [decodeTrace, List.length_cons, Nat.add_sub_cancel]
    split
    · refine Trace.Bounded_after (decodeLoop_bound ks 1 _ _ (by omega) (le_refl _) (by simpa [DecWork.count] using hf 0)) ?_
      intro em hm
      obtain ⟨e1, e2⟩ := emitPattern_mem hm
      rw [e1, e2]
      exact ⟨by omega, by simpa [DecWork.count] using hf _⟩
    · exact ⟨by simp, by simp, hf _⟩

end Sys2Proof.Machine
end

