-- ==== Sys2Proof/Laws/Encoder.lean ====
section
/-! SUPPORT. The laws of ENCODE's body (42_encode.md R87 to R95): it emits the codes of the greedy parse, every text
has one, its codes decode to its patterns, and the bounds that hold for every text. -/

namespace Sys2Proof.Machine

/-! ### Greedy parses -/

theorem firstOf_ne_nil {p : Pattern} (h : p ≠ []) : firstOf p ≠ [] := by
  cases p with
  | nil => exact absurd rfl h
  | cons c p => simp

/-- A pattern `p` is the literal or the earlier miss that its code `k` at emission `i` names. -/
def ParsedAt (P : List Pattern) (i : Nat) (p : Pattern) (k : Nat) : Prop :=
  (∃ c : Byte, p = [c] ∧ k = c.toNat) ∨
    ∃ j, 3840 * (i / 3840) ≤ j ∧ j < i ∧ p = missEntry P j ∧ k = 256 + j % 3840

theorem getD_ne_nil {P : List Pattern} (h : ∀ p ∈ P, p ≠ []) {i : Nat} (hi : i < P.length) : P.getD i [] ≠ [] := by
  rw [List.getD_eq_getElem?_getD, List.getElem?_eq_getElem hi]
  exact h _ (List.getElem_mem hi)

/-- An entry has at least two bytes (R89). -/
theorem missEntry_not_literal {P : List Pattern} (h : ∀ p ∈ P, p ≠ []) {j : Nat} (hj : j + 1 < P.length) (c : Byte) :
    missEntry P j ≠ [c] := by
  intro he
  have h1 := List.length_pos_iff.mpr (getD_ne_nil h (show j < P.length by omega))
  have h2 := length_firstOf (getD_ne_nil h hj)
  have := congrArg List.length he
  rw [missEntry, List.length_append, h2, List.length_singleton] at this
  omega

/-- The encoder's dictionary at emission `k` (R89, R90). -/
def encDict (P : List Pattern) (k : Nat) : Dict := learned P (3840 * (k / 3840)) (k % 3840)

/-- The readbacks at emission `k` (R93). -/
def encCount (k : Nat) : DictCount := { size := 256 + k % 3840, resets := k / 3840 }

theorem known_encDict {P : List Pattern} {k : Nat} {p : Pattern} :
    (encDict P k).known p = true ↔
      (∃ c : Byte, p = [c]) ∨ ∃ j, 3840 * (k / 3840) ≤ j ∧ j < k ∧ p = missEntry P j := by
  rw [encDict, known_learned, Nat.div_add_mod]

section parse

variable {b : List Byte} {P : List Pattern} {cs : List Nat}

theorem GreedyParse.parsedAt (h : GreedyParse b P cs) {i : Nat} (hi : i < cs.length) :
    ParsedAt P i (P.getD i []) cs[i] := h.2.2.2.1 i hi

theorem GreedyParse.not_literal (h : GreedyParse b P cs) {j : Nat} (hj : j + 1 < P.length) (c : Byte) :
    missEntry P j ≠ [c] := missEntry_not_literal h.2.1 hj c

/-- Entries of one epoch differ (R89). -/
theorem GreedyParse.entries_ne (h : GreedyParse b P cs) {i j : Nat} (hi : i + 1 < P.length)
    (h1 : 3840 * (i / 3840) ≤ j) (h2 : j < i) : missEntry P j ≠ missEntry P i :=
  fun he => h.2.2.2.2 i hi j h1 h2 he.symm

/-- Every pattern of the parse is a key when it is emitted. -/
theorem GreedyParse.known (h : GreedyParse b P cs) {i : Nat} (hi : i < cs.length) :
    (encDict P i).known (P.getD i []) = true := by
  rw [known_encDict]
  rcases h.parsedAt hi with ⟨c, hc, -⟩ | ⟨j, h1, h2, h3, -⟩
  · exact .inl ⟨c, hc⟩
  · exact .inr ⟨j, h1, h2, h3⟩

/-- Its code in the dictionary is the parse's code (R27, R89). -/
theorem GreedyParse.code (h : GreedyParse b P cs) {i : Nat} (hi : i < cs.length) :
    (encDict P i).code (P.getD i []) = cs[i] := by
  have hlen := h.2.2.1
  rcases h.parsedAt hi with ⟨c, hc, hk⟩ | ⟨j, h1, h2, h3, hk⟩
  · rw [hc, hk, encDict, code_learned_literal]
  · rw [h3, hk, encDict, code_learned_entry h1 (by omega) (h.not_literal (by omega))
      (fun j' a b => h.entries_ne (by omega) (by omega) b)]
    omega

/-- A non-empty prefix of a key is a key (R88). -/
theorem GreedyParse.prefix_known (h : GreedyParse b P cs) {k : Nat} (hk : k < cs.length) {p q : Pattern}
    (hp : (encDict P k).known p = true) (hq : q ≠ []) (hqp : q <+: p) : (encDict P k).known q = true := by
  induction k using Nat.strong_induction_on generalizing p q with
  | _ k ih =>
    rw [known_encDict] at hp ⊢
    rcases hp with ⟨c, rfl⟩ | ⟨j, h1, h2, rfl⟩
    · left
      obtain ⟨r, hr⟩ := hqp
      cases q with
      | nil => exact absurd rfl hq
      | cons a q =>
        simp only [List.cons_append, List.cons.injEq, List.append_eq_nil_iff] at hr
        exact ⟨a, by rw [hr.2.1]⟩
    · by_cases hfull : q = missEntry P j
      · exact .inr ⟨j, h1, h2, hfull⟩
      · have hpre : q <+: P.getD j [] := by
          have hlen := length_firstOf (getD_ne_nil h.2.1 (show j + 1 < P.length by have := h.2.2.1; omega))
          obtain ⟨a, ha⟩ := List.length_eq_one_iff.mp hlen
          rw [missEntry, ha] at hqp hfull
          rcases List.prefix_concat_iff.mp hqp with hh | hh
          · exact absurd hh hfull
          · exact hh
        have := ih j (by omega) (by omega) (h.known (by omega)) hq hpre
        rw [known_encDict] at this
        rcases this with hl | ⟨j', a, b, hj'⟩
        · exact .inl hl
        · exact .inr ⟨j', by omega, by omega, hj'⟩

/-- The candidate at a miss is no key (R89). -/
theorem GreedyParse.miss (h : GreedyParse b P cs) {k : Nat} (hk : k + 1 < P.length) :
    (encDict P k).known (missEntry P k) = false := by
  rw [← Bool.not_eq_true, known_encDict]
  rintro (⟨c, hc⟩ | ⟨j, h1, h2, h3⟩)
  · exact h.not_literal hk c hc
  · exact h.entries_ne hk h1 h2 h3.symm

end parse

/-! ### The loop -/

/-- Match extension over known prefixes (R88). -/
theorem encodeLoop_extend (d : Dict) (r : Nat) (s : List Byte) (m : Pattern) (rest : List Byte) (i : Nat)
    (h : ∀ q, q ≠ [] → q <+: s → d.known (m ++ q) = true) :
    encodeLoop (s ++ rest) i { dict := d, m := m, resets := r } =
      encodeLoop rest (i + s.length) { dict := d, m := m ++ s, resets := r } := by
  induction s generalizing m i with
  | nil => simp
  | cons c s ih =>
    rw [List.cons_append, encodeLoop]
    rw [if_pos (h [c] (by simp) (by simp))]
    rw [ih (m ++ [c]) (i + 1) fun q hq hqs => by
      rw [List.append_assoc]
      exact h ([c] ++ q) (by simp) (by simpa using hqs)]
    simp only [List.append_assoc, List.singleton_append, List.length_cons]
    congr 1
    omega

/-- The dictionary after the miss that ends emission `k` (R89, R90). -/
theorem afterMiss_encDict (P : List Pattern) (k : Nat) (c : Byte) (hc : firstOf (P.getD (k + 1) []) = [c]) :
    EncWork.afterMiss { dict := encDict P k, m := P.getD k [], resets := k / 3840 } c =
      { dict := encDict P (k + 1), m := [c], resets := (k + 1) / 3840 } := by
  have he : P.getD k [] ++ [c] = missEntry P (3840 * (k / 3840) + k % 3840) := by
    rw [Nat.div_add_mod, missEntry, hc]
  simp only [EncWork.afterMiss, he, encDict, register_learned, size_learned]
  split
  · rw [show (k + 1) % 3840 = 0 by omega, show (k + 1) / 3840 = k / 3840 + 1 by omega, learned_zero]
  · rw [show (k + 1) % 3840 = k % 3840 + 1 by omega, show (k + 1) / 3840 = k / 3840 by omega]

/-- What emission `k` of the parse looks like (R89, R91, R104). -/
def encEmission (P : List Pattern) (cs : List Nat) (k : Nat) : Emission where
  value := BitVec.ofNat 16 (cs.getD k 0)
  cursor := (P.take (k + 1)).flatten.length
  dict := encCount k

theorem drop_getD_cons {P : List Pattern} {k : Nat} (h : k < P.length) : P.drop k = P.getD k [] :: P.drop (k + 1) := by
  rw [List.drop_eq_getElem_cons h, List.getD_eq_getElem?_getD, List.getElem?_eq_getElem h]
  rfl

theorem flatten_take_succ {P : List Pattern} {k : Nat} (h : k < P.length) :
    (P.take (k + 1)).flatten.length = (P.take k).flatten.length + (P.getD k []).length := by
  rw [take_succ_getD P h]
  simp

theorem emission_eq {b : List Byte} {P : List Pattern} {cs : List Nat} (h : GreedyParse b P cs) {k : Nat}
    (hk : k < cs.length) :
    EncWork.emission { dict := encDict P k, m := P.getD k [], resets := k / 3840 } (P.take (k + 1)).flatten.length =
      encEmission P cs k := by
  have hcode := h.code hk
  simp only [EncWork.emission, EncWork.count, hcode, encEmission, encCount]
  rw [encDict, size_learned, List.getD_eq_getElem?_getD (l := cs), List.getElem?_eq_getElem hk, Option.getD_some]

/-- From the first byte of pattern `k` on, the loop makes the rest of the parse's emissions. -/
theorem encodeLoop_parse {b : List Byte} {P : List Pattern} {cs : List Nat} (h : GreedyParse b P cs) (n : Nat) :
    ∀ k c s, n + k + 1 = P.length → P.getD k [] = c :: s →
      encodeLoop (s ++ (P.drop (k + 1)).flatten) ((P.take k).flatten.length + 1)
          { dict := encDict P k, m := [c], resets := k / 3840 } =
        { emissions := (List.range' k (n + 1)).map (encEmission P cs), stop := none, dict := encCount (k + n) } := by
  have hlen := h.2.2.1
  induction n with
  | zero =>
    intro k c s hn hp
    rw [List.drop_eq_nil_of_le (by omega), encodeLoop_extend]
    · have hflat := flatten_take_succ (P := P) (k := k) (by omega)
      have hflat' : (P.take (k + 1)).flatten.length = (P.take k).flatten.length + 1 + s.length := by
        rw [hflat, hp, List.length_cons]; omega
      rw [List.flatten_nil, encodeLoop, List.singleton_append, ← hp, ← hflat', emission_eq h (by omega)]
      rw [if_neg (by rw [hp]; simp)]
      simp [EncWork.count, encCount, encDict]
    · intro q hq hqs
      refine h.prefix_known (by omega) (h.known (i := k) (by omega)) (by simp) ?_
      rw [hp]
      simpa using hqs
  | succ n ih =>
    intro k c s hn hp
    rw [encodeLoop_extend]
    · obtain ⟨c', s', hp'⟩ := List.exists_cons_of_ne_nil (getD_ne_nil h.2.1 (show k + 1 < P.length by omega))
      have hflat := flatten_take_succ (P := P) (k := k) (by omega)
      have hflat' : (P.take (k + 1)).flatten.length = (P.take k).flatten.length + 1 + s.length := by
        rw [hflat, hp, List.length_cons]; omega
      have hmiss := h.miss (k := k) (by omega)
      rw [missEntry, hp', firstOf_cons] at hmiss
      rw [drop_getD_cons (show k + 1 < P.length by omega), List.flatten_cons, hp', List.cons_append, encodeLoop]
      simp only [List.singleton_append, ← hp, hmiss, Bool.false_eq_true, if_false, ← hflat']
      rw [afterMiss_encDict P k c' (by rw [hp', firstOf_cons]), ih (k + 1) c' s' (by omega) hp']
      rw [emission_eq h (by omega), show k + 1 + n = k + (n + 1) by omega]
      rfl
    · intro q hq hqs
      refine h.prefix_known (by omega) (h.known (i := k) (by omega)) (by simp) ?_
      rw [hp]
      simpa using hqs

/-- ENCODE's body emits exactly the codes of the greedy parse (R87). -/
theorem encodeTrace_parse {b : List Byte} {P : List Pattern} {cs : List Nat} (h : GreedyParse b P cs) :
    encodeTrace b =
      { emissions := (List.range cs.length).map (encEmission P cs), stop := none, dict := encCount (cs.length - 1) } := by
  have hlen := h.2.2.1
  have hb := h.1
  by_cases hP : P = []
  · subst hP
    have hcs : cs = [] := List.length_eq_zero_iff.mp (by simpa using hlen)
    subst hb hcs
    simp [encodeTrace, encodeLoop, EncWork.count, encCount]
  · have hpos := List.length_pos_iff.mpr hP
    obtain ⟨c, s, hp⟩ := List.exists_cons_of_ne_nil (getD_ne_nil h.2.1 hpos)
    have hrun := encodeLoop_parse h (P.length - 1) 0 c s (by omega) hp
    have htext : b = c :: (s ++ (P.drop 1).flatten) := by
      rw [← hb]
      conv_lhs => rw [← List.drop_zero (l := P), drop_getD_cons hpos, hp]
      simp
    have hknown : Dict.init.known ([] ++ [c]) = true := by
      rw [Dict.known, List.contains_iff_mem, List.nil_append, Dict.mem_init]
      exact ⟨c, rfl⟩
    rw [htext, encodeTrace, encodeLoop, if_pos hknown, List.nil_append]
    rw [show P.length - 1 + 1 = cs.length by omega, show 0 + (P.length - 1) = cs.length - 1 by omega] at hrun
    rw [List.range_eq_range', ← hrun]
    simp [encDict]

/-! ### Every text has a greedy parse -/

theorem getD_append_last (P : List Pattern) (q : Pattern) : (P ++ [q]).getD P.length [] = q := by
  simp [List.getD_eq_getElem?_getD]

/-- A parse row depends only on the patterns up to it. -/
theorem missEntry_congr {P Q : List Pattern} {j : Nat} (h0 : P.getD j [] = Q.getD j [])
    (h1 : firstOf (P.getD (j + 1) []) = firstOf (Q.getD (j + 1) [])) : missEntry P j = missEntry Q j := by
  rw [missEntry, missEntry, h0, h1]

/-- A new pattern of one byte, after a miss. -/
theorem GreedyParse.concat {b : List Byte} {P : List Pattern} {cs : List Nat} (h : GreedyParse b P cs) (c : Byte)
    (hmiss : ∀ j, 3840 * ((P.length - 1) / 3840) ≤ j → j + 1 < P.length →
      P.getD (P.length - 1) [] ++ [c] ≠ missEntry P j) :
    GreedyParse (b ++ [c]) (P ++ [[c]]) (cs ++ [c.toNat]) := by
  obtain ⟨hb, hne, hlen, hrow, hfresh⟩ := h
  have hgt : ∀ j, j < P.length → (P ++ [[c]]).getD j [] = P.getD j [] := fun j hj => getD_append_left P _ hj
  have hent : ∀ j, j + 1 < P.length → missEntry (P ++ [[c]]) j = missEntry P j :=
    fun j hj => missEntry_congr (hgt j (by omega)) (by rw [hgt _ hj])
  have hlast := getD_append_last P [c]
  refine ⟨by simp [hb], ?_, by simp [hlen], fun i hi => ?_, fun i hi j h1 h2 => ?_⟩
  · intro p hp
    rcases List.mem_append.mp hp with hp | hp
    · exact hne p hp
    · rw [List.mem_singleton.mp hp]; simp
  · by_cases hi' : i < cs.length
    · rw [List.getElem_append_left hi', hgt i (by omega)]
      rcases hrow i hi' with hl | ⟨j, a, b, hj, hk⟩
      · exact .inl hl
      · exact .inr ⟨j, a, b, by rw [hent j (by omega)]; exact hj, hk⟩
    · obtain rfl : i = cs.length := by simp at hi; omega
      left
      refine ⟨c, ?_, by simp⟩
      rw [hlen, hlast]
  · simp only [List.length_append, List.length_singleton] at hi
    by_cases hi' : i + 1 < P.length
    · rw [hent i hi', hent j (by omega)]
      exact hfresh i hi' j h1 h2
    · obtain rfl : i = P.length - 1 := by omega
      rw [hent j (by omega), missEntry, hgt _ (by omega), Nat.sub_add_cancel (by omega), hlast]
      simpa using hmiss j h1 (by omega)

/-- The last pattern extended by one byte to an entry of its epoch. -/
theorem GreedyParse.extend {b : List Byte} {P : List Pattern} {p : Pattern} {cs : List Nat} {k0 : Nat}
    (h : GreedyParse b (P ++ [p]) (cs ++ [k0])) (c : Byte) {j0 : Nat} (h0 : 3840 * (P.length / 3840) ≤ j0)
    (h1 : j0 < P.length) (hj0 : p ++ [c] = missEntry (P ++ [p]) j0) :
    GreedyParse (b ++ [c]) (P ++ [p ++ [c]]) (cs ++ [256 + j0 % 3840]) := by
  obtain ⟨hb, hne, hlen, hrow, hfresh⟩ := h
  have hp : p ≠ [] := hne p (by simp)
  have hgt : ∀ q j, j < P.length → (P ++ [q]).getD j [] = P.getD j [] := fun q j hj => getD_append_left P q hj
  have hent : ∀ j, j < P.length → missEntry (P ++ [p ++ [c]]) j = missEntry (P ++ [p]) j := by
    intro j hj
    refine missEntry_congr (by rw [hgt _ _ hj, hgt _ _ hj]) ?_
    by_cases hj' : j + 1 < P.length
    · rw [hgt _ _ hj', hgt _ _ hj']
    · rw [show j + 1 = P.length by omega, getD_append_last, getD_append_last, firstOf_append hp]
  simp only [List.length_append, List.length_singleton] at hlen
  refine ⟨by simp [← hb], ?_, by simp; omega, fun i hi => ?_, fun i hi j h1 h2 => ?_⟩
  · intro q hq
    rcases List.mem_append.mp hq with hq | hq
    · exact hne q (by simp [hq])
    · rw [List.mem_singleton.mp hq]; simp
  · by_cases hi' : i < cs.length
    · rw [List.getElem_append_left hi', hgt _ i (by omega)]
      have := hrow i (by simp; omega)
      rw [List.getElem_append_left hi', hgt _ i (by omega)] at this
      rcases this with hl | ⟨j, a, b, hj, hk⟩
      · exact .inl hl
      · exact .inr ⟨j, a, b, by rw [hent j (by omega)]; exact hj, hk⟩
    · obtain rfl : i = cs.length := by simp at hi; omega
      right
      refine ⟨j0, by omega, by omega, ?_, by simp⟩
      rw [hent j0 h1, ← hj0]
      rw [show cs.length = P.length by omega, getD_append_last]
  · simp only [List.length_append, List.length_singleton] at hi
    rw [hent i (by omega), hent j (by omega)]
    exact hfresh i (by simp; omega) j h1 h2

theorem exists_greedyParse (b : List Byte) : ∃ P cs, GreedyParse b P cs := by
  induction b using List.reverseRecOn with
  | nil => exact ⟨[], [], by simp [GreedyParse]⟩
  | append_singleton b c ih =>
    obtain ⟨P, cs, h⟩ := ih
    by_cases hk : ∃ j, 3840 * ((P.length - 1) / 3840) ≤ j ∧ j + 1 < P.length ∧
        P.getD (P.length - 1) [] ++ [c] = missEntry P j
    · obtain ⟨j, h0, h1, hj⟩ := hk
      have hlen := h.2.2.1
      rcases List.eq_nil_or_concat P with rfl | ⟨Q, p, rfl⟩
      · simp at h1
      rcases List.eq_nil_or_concat cs with rfl | ⟨ds, k, rfl⟩
      · simp at hlen
      simp only [List.concat_eq_append] at *
      simp only [List.length_append, List.length_singleton, Nat.add_sub_cancel, getD_append_last] at h0 h1 hj
      exact ⟨_, _, h.extend c h0 (by omega) hj⟩
    · exact ⟨_, _, h.concat c fun j h0 h1 hj => hk ⟨j, h0, h1, hj⟩⟩

/-! ### Round trip (R95) -/

/-- The codes of a greedy parse are accepted. -/
theorem GreedyParse.codesValid {b : List Byte} {P : List Pattern} {cs : List Nat} (h : GreedyParse b P cs) :
    CodesValid cs := by
  intro i hi
  rcases h.parsedAt hi with ⟨c, -, hk⟩ | ⟨j, h1, h2, -, hk⟩
  · have := c.isLt
    unfold codeAllowed
    split <;> omega
  · rw [codeAllowed, if_neg (by omega)]
    omega

/-- They decode to its patterns. -/
theorem GreedyParse.decodesTo {b : List Byte} {P : List Pattern} {cs : List Nat} (h : GreedyParse b P cs) :
    DecodesTo cs P := by
  have hlen := h.2.2.1
  refine decodesTo_iff.mpr ⟨hlen.symm, fun i hi => ?_⟩
  unfold PatternAt
  rcases h.parsedAt hi with ⟨c, hc, hk⟩ | ⟨j, h1, h2, hj, hk⟩
  · have := c.isLt
    rw [if_pos (by omega), hc, hk]
    simp
  · rw [if_neg (by omega)]
    by_cases hself : j = i - 1
    · subst hself
      have hne := getD_ne_nil h.2.1 (show i - 1 < P.length by omega)
      have hi1 : i - 1 + 1 = i := by omega
      have hfirst : firstOf (P.getD i []) = firstOf (P.getD (i - 1) []) := by
        rw [hj, missEntry, firstOf_append hne]
      rw [missEntry, hi1] at hj
      rw [if_pos (by omega), ← hfirst]
      exact hj
    · have hjk : 3840 * ((i - 1) / 3840) + (cs[i] - 256) = j := by omega
      rw [if_neg (by omega), hjk]
      exact hj

/-- No code of a greedy parse exceeds 4094 (R94). -/
theorem GreedyParse.code_le {b : List Byte} {P : List Pattern} {cs : List Nat} (h : GreedyParse b P cs) {i : Nat}
    (hi : i < cs.length) : cs[i] ≤ 4094 := by
  rcases h.parsedAt hi with ⟨c, -, hk⟩ | ⟨j, h1, h2, -, hk⟩
  · have := c.isLt
    omega
  · omega

/-- There are at most as many codes as bytes (R94). -/
theorem GreedyParse.length_le {b : List Byte} {P : List Pattern} {cs : List Nat} (h : GreedyParse b P cs) :
    cs.length ≤ b.length := by
  obtain ⟨hb, hne, hlen, -, -⟩ := h
  rw [hlen, ← hb]
  clear hb hlen
  induction P with
  | nil => simp
  | cons p P ih =>
    have hp := List.length_pos_iff.mpr (hne p (by simp))
    have := ih fun q hq => hne q (by simp [hq])
    rw [List.flatten_cons, List.length_append, List.length_cons]
    omega

theorem GreedyParse.length_eq_zero {b : List Byte} {P : List Pattern} {cs : List Nat} (h : GreedyParse b P cs) :
    cs.length = 0 ↔ b.length = 0 := by
  constructor
  · intro hc
    have hP : P = [] := List.length_eq_zero_iff.mp (by rw [← h.2.2.1, hc])
    rw [← h.1, hP]
    rfl
  · intro hb
    have := h.length_le
    omega

end Sys2Proof.Machine
end

