-- ==== Sys2Proof/Laws/Decode.lean ====
section
/-! SUPPORT. The laws of command words: fields, opcodes, and the encoder. -/

namespace Sys2Proof

/-- A word is its RSVD field above its OP field. -/
theorem word_eq_fields (w : Word) : w = (w.extractLsb' 4 28 ++ w.extractLsb' 0 4 : BitVec 32) := by
  apply BitVec.eq_of_toNat_eq
  rw [BitVec.toNat_append, ← Nat.shiftLeft_add_eq_or_of_lt (w.extractLsb' 0 4).isLt, Nat.shiftLeft_eq]
  simp only [BitVec.extractLsb'_toNat, Nat.shiftRight_eq_div_pow]
  have := w.isLt
  omega

/-- An opcode names a command exactly when it is that command's opcode (R54). -/
theorem decodeOp_eq_ok {op : BitVec 4} {i : Instr} : decodeOp op = .ok i ↔ op = i.op := by
  cases i <;> revert op <;> decide

/-- The reserved opcodes (R54, R55). -/
theorem decodeOp_eq_error {op : BitVec 4} : (∃ e, decodeOp op = .error e) ↔ (op = 0#4 ∨ 6 ≤ op.toNat) := by
  have h : ∀ op : BitVec 4,
      (match decodeOp op with | .ok _ => false | .error _ => true) = true ↔ (op = 0#4 ∨ 6 ≤ op.toNat) := by
    decide
  rw [← h]
  cases decodeOp op <;> simp

@[simp] theorem decodeWord_encode (i : Instr) : decodeWord (encode i) = .ok i := by cases i <;> rfl

@[simp] theorem decodeOp_encode (i : Instr) : decodeOp ((encode i).extractLsb' 0 4) = .ok i := by cases i <;> rfl

@[simp] theorem decodeTableWord_encode (i : Instr) : decodeTableWord 32 (encode i).toNat = some i := by
  cases i <;> rfl

/-- A word with RSVD = 0 and OP in 1 .. 5 names a command. -/
theorem decodeWord_of_legal {w : Word} (h : w.extractLsb' 4 28 = 0#28) (h1 : 1 ≤ (w.extractLsb' 0 4).toNat)
    (h5 : (w.extractLsb' 0 4).toNat ≤ 5) : ∃ i, decodeWord w = .ok i := by
  rw [decodeWord, if_pos h]
  cases hd : decodeOp (w.extractLsb' 0 4) with
  | ok i => exact ⟨i, rfl⟩
  | error e =>
    rcases decodeOp_eq_error.mp ⟨e, hd⟩ with h0 | h6
    · rw [h0] at h1; simp at h1
    · omega

/-- Any other word is refused. -/
theorem decodeWord_of_illegal {w : Word}
    (h : w.extractLsb' 4 28 ≠ 0#28 ∨ ¬ (1 ≤ (w.extractLsb' 0 4).toNat ∧ (w.extractLsb' 0 4).toNat ≤ 5)) :
    ∃ e, decodeWord w = .error e := by
  by_cases hr : w.extractLsb' 4 28 = 0#28
  · rw [decodeWord, if_pos hr, decodeOp_eq_error]
    rcases h with h | h
    · exact absurd hr h
    · by_cases h6 : 6 ≤ (w.extractLsb' 0 4).toNat
      · exact .inr h6
      · left
        apply BitVec.eq_of_toNat_eq
        rw [show (0#4).toNat = 0 from rfl]
        omega
  · exact ⟨_, by rw [decodeWord, if_neg hr]⟩

/-- A word names a command exactly when its fields are well formed (R55). -/
theorem decodeWord_ok_iff_wf (w : Word) : (∃ i, decodeWord w = .ok i) ↔ (CommandWord.ofWord w).wf = true := by
  have hwf : (CommandWord.ofWord w).wf = true ↔
      w.extractLsb' 4 28 = 0#28 ∧ 1 ≤ (w.extractLsb' 0 4).toNat ∧ (w.extractLsb' 0 4).toNat ≤ 5 := by
    rw [CommandWord.wf, Bool.and_eq_true]
    exact and_congr beq_iff_eq decide_eq_true_iff
  rw [hwf]
  constructor
  · rintro ⟨i, hi⟩
    by_contra h
    obtain ⟨e, he⟩ := decodeWord_of_illegal (w := w) (not_and_or.mp h)
    rw [he] at hi
    cases hi
  · rintro ⟨h, h1, h5⟩
    exact decodeWord_of_legal h h1 h5

end Sys2Proof
end

