-- ==== Sys2Proof/Laws/HostPort.lean ====
section
/-! SUPPORT. The laws of the address map and of the two kinds of transaction. -/

namespace Sys2Proof.Machine

/-! ### The address map (20_memory.md R39) -/

/-- An address is its space above its index. -/
theorem addr_eq_space_index (a : Word) :
    a.toNat = (a.extractLsb' 24 8).toNat * 16777216 + (a.extractLsb' 0 24).toNat := by
  simp only [BitVec.extractLsb'_toNat, Nat.shiftRight_eq_div_pow]
  have := a.isLt
  omega

theorem addr_space (a : Word) : (a.extractLsb' 24 8).toNat = a.toNat / 16777216 := by
  have h := addr_eq_space_index a
  have := (a.extractLsb' 0 24).isLt
  omega

theorem addr_index (a : Word) : (a.extractLsb' 0 24).toNat = a.toNat % 16777216 := by
  have h := addr_eq_space_index a
  have := (a.extractLsb' 0 24).isLt
  omega

@[simp] theorem target_regAddr (p : Params) (r : Reg) : target p (regAddr r) = .reg r := by cases r <;> rfl

theorem params_depth {p : Params} (h : p.wf = true) :
    1 ≤ p.inDepth ∧ p.inDepth ≤ 16777216 ∧ 1 ≤ p.outDepth ∧ p.outDepth ≤ 16777216 := by
  simp only [Params.wf, depthOk, Bool.and_eq_true, decide_eq_true_eq] at h
  omega

theorem target_inAddr {p : Params} (h : p.wf = true) {i : Nat} (hi : i < p.inDepth) :
    target p (inAddr i) = .inElem i := by
  have hd := params_depth h
  have ha : (inAddr i).toNat = 16777216 + i := by
    simp only [inAddr, BitVec.toNat_add, BitVec.toNat_ofNat]
    omega
  simp only [target, addr_space, addr_index, ha]
  rw [show (16777216 + i) / 16777216 = 1 by omega, show (16777216 + i) % 16777216 = i by omega]
  simp [hi]

theorem target_outAddr {p : Params} (h : p.wf = true) {i : Nat} (hi : i < p.outDepth) :
    target p (outAddr i) = .outElem i := by
  have hd := params_depth h
  have ha : (outAddr i).toNat = 33554432 + i := by
    simp only [outAddr, BitVec.toNat_add, BitVec.toNat_ofNat]
    omega
  simp only [target, addr_space, addr_index, ha]
  rw [show (33554432 + i) / 16777216 = 2 by omega, show (33554432 + i) % 16777216 = i by omega]
  simp [hi]

theorem regAt_eq_none {n : Nat} (h : 12 ≤ n) : regAt n = none := by
  unfold regAt
  split <;> first | omega | rfl

theorem target_hole {p : Params} (h : p.wf = true) {a : Word}
    (ha : 0x0000000C ≤ a.toNat ∧ a.toNat < 0x01000000 ∨
      0x01000000 + p.inDepth ≤ a.toNat ∧ a.toNat < 0x02000000 ∨
      0x02000000 + p.outDepth ≤ a.toNat ∧ a.toNat < 0x03000000 ∨ 0x03000000 ≤ a.toNat) :
    target p a = .hole := by
  have hd := params_depth h
  simp only [target, addr_space, addr_index]
  rcases ha with h1 | h1 | h1 | h1
  · rw [show a.toNat / 16777216 = 0 by omega, regAt_eq_none (by omega)]
    rfl
  · rw [show a.toNat / 16777216 = 1 by omega]
    simp only
    rw [if_neg (by omega)]
  · rw [show a.toNat / 16777216 = 2 by omega]
    simp only
    rw [if_neg (by omega)]
  · split
    · omega
    · omega
    · omega
    · rfl

/-- A register has one address. -/
theorem target_eq_reg {p : Params} {a : Word} {r : Reg} : target p a = .reg r ↔ a = regAddr r := by
  constructor
  · intro h
    simp only [target, addr_space, addr_index] at h
    split at h
    · next h0 =>
      split at h
      · next r' hr =>
        cases h
        apply BitVec.eq_of_toNat_eq
        have ha : a.toNat % 16777216 = a.toNat := by omega
        rw [ha] at hr
        unfold regAt at hr
        split at hr <;> first | (next hn => cases hr; rw [hn]; rfl) | cases hr
      · cases h
    · split at h <;> cases h
    · split at h <;> cases h
    · cases h
  · rintro rfl; exact target_regAddr p r

/-- The index of an IN_BUF target lies inside IN_BUF. -/
theorem target_eq_inElem_lt {p : Params} {a : Word} {i : Nat} (h : target p a = .inElem i) : i < p.inDepth := by
  simp only [target] at h
  split at h
  · split at h <;> cases h
  · split at h
    · next hi => cases h; exact hi
    · cases h
  · split at h <;> cases h
  · cases h

/-! ### Transactions -/

/-- A read changes only what the port returned and, while BUSY, the model's draw counter (R40, R48). -/
theorem hostRead_eq (a : Word) (s : State) :
    ∃ (v : Word) (d : Nat), hostRead a s = { s with response := some v, draws := d } ∧ s.draws ≤ d ∧
      (s.engState = .idle → d = s.draws) := by
  unfold hostRead
  split
  · unfold State.readReg
    split
    · next h _ => exact ⟨_, _, rfl, by simp, by simp [h]⟩
    · exact ⟨_, _, rfl, le_refl _, fun _ => rfl⟩
  · exact ⟨_, _, rfl, le_refl _, fun _ => rfl⟩
  · unfold State.readOutElem
    split
    · exact ⟨_, _, rfl, le_refl _, fun _ => rfl⟩
    · next h => exact ⟨_, _, rfl, by simp, by simp [h]⟩
  · exact ⟨_, _, rfl, le_refl _, fun _ => rfl⟩

/-- What a write can do, by what its address names. -/
theorem hostWrite_cases (a w : Word) (s : State) :
    (a = regAddr .ctrl ∧ hostWrite a w s = s.writeCtrl w) ∨
    (a = regAddr .cmd ∧ hostWrite a w s = s.issue w) ∨
    (a = regAddr .status ∧ hostWrite a w s = s.clearStatus w) ∨
    (a = regAddr .inLen ∧ hostWrite a w s = s.writeInLen w) ∨
    (∃ i, target s.params a = .inElem i ∧ i < s.params.inDepth ∧ hostWrite a w s = s.writeInElem i w) ∨
    ((∀ r ∈ [Reg.ctrl, .cmd, .status, .inLen], a ≠ regAddr r) ∧ hostWrite a w s = s) := by
  unfold hostWrite
  cases ht : target s.params a with
  | reg r =>
    have ha := target_eq_reg.mp ht
    subst ha
    cases r <;> simp [State.writeReg, regAddr]
  | inElem i => simpa using .inr (.inr (.inr (.inr (.inl (target_eq_inElem_lt ht)))))
  | outElem i =>
    right; right; right; right; right
    refine ⟨?_, rfl⟩
    rintro r - rfl
    simp at ht
  | hole =>
    right; right; right; right; right
    refine ⟨?_, rfl⟩
    rintro r - rfl
    simp at ht

/-- A write of CMD, by cases (R98). -/
theorem State.issue_cases (s : State) (w : Word) :
    (s.engState = .busy ∧ s.issue w = { s with ovr := true }) ∨
    (s.engState = .idle ∧ (∃ e, decodeWord w = .error e) ∧ s.issue w = s.refuseIllegal) ∨
    (s.engState = .idle ∧ ∃ i, decodeWord w = .ok i ∧ s.issue w = s.accept w) := by
  unfold State.issue
  cases s.engState with
  | busy => simp
  | idle => cases decodeWord w <;> simp

end Sys2Proof.Machine
end

