-- ==== Sys2Proof/Laws/Step.lean ====
section
/-! SUPPORT. What a step can do, said once: provers split a step by `step_next` and never unfold `step`. -/

namespace Sys2Proof.Machine

theorem step_host {s : State} {x : Transaction} {rest : List Event} (h : s.pending = .host x :: rest) :
    step s = .next (transact x (s.setPending rest)) := by
  simp [step, h]

theorem step_rst {s : State} {rest : List Event} (h : s.pending = .rst :: rest) :
    step s = .next (s.hardReset.setPending rest) := by
  simp [step, h]

theorem step_engine {s : State} {rest : List Event} (h : s.pending = .engine :: rest) :
    step s = engineTurn (s.setPending rest) := by
  simp [step, h]

theorem step_empty {s : State} (h : s.pending = []) : step s = engineTurn s := by
  simp [step, h]

theorem engineTurn_idle {s : State} (h : s.engState = .idle) : engineTurn s = .next s := by
  simp [engineTurn, h]

theorem engineTurn_busy {s : State} {i : Instr} (h : s.engState = .busy) (hi : decodeOp s.latchedOp = .ok i) :
    engineTurn s = exec i s := by
  simp [engineTurn, h, hi]

/-- What an engine's turn can answer with a next state. -/
theorem engineTurn_next {s t : State} (h : engineTurn s = .next t) :
    (s.engState = .idle ∧ t = s) ∨ (s.engState = .busy ∧ ∃ i, decodeOp s.latchedOp = .ok i ∧ exec i s = .next t) := by
  unfold engineTurn at h
  cases he : s.engState with
  | idle => simp [he] at h; exact .inl ⟨rfl, h.symm⟩
  | busy =>
    simp only [he] at h
    cases hd : decodeOp s.latchedOp with
    | ok i => simp only [hd] at h; exact .inr ⟨rfl, i, rfl, h⟩
    | error e => simp [hd] at h

/-- Everything a step that answers a next state can have done. `s'` is the state the engine moves from. -/
theorem step_next {s t : State} (h : step s = .next t) :
    (∃ s', (s' = s ∧ s.pending = [] ∨ ∃ rest, s' = s.setPending rest ∧ s.pending = .engine :: rest) ∧
      (s.engState = .idle ∧ t = s' ∨
        s.engState = .busy ∧ ∃ i, decodeOp s.latchedOp = .ok i ∧ exec i s' = .next t)) ∨
    (∃ x rest, s.pending = .host x :: rest ∧ t = transact x (s.setPending rest)) ∨
    (∃ rest, s.pending = .rst :: rest ∧ t = s.hardReset.setPending rest) := by
  unfold step at h
  split at h
  · next hp => exact .inl ⟨s, .inl ⟨rfl, hp⟩, engineTurn_next h⟩
  · next rest hp => exact .inl ⟨_, .inr ⟨rest, rfl, hp⟩, engineTurn_next h⟩
  · next x rest hp => exact .inr (.inl ⟨x, rest, hp, by simpa using h.symm⟩)
  · next rest hp => exact .inr (.inr ⟨rest, hp, by simpa using h.symm⟩)

/-- A command's next state is a completion of the state it started from. -/
theorem exec_next {i : Instr} {s t : State} (h : exec i s = .next t) :
    (s.params.inDepth < s.latchedLen.toNat ∧
      t = s.complete (commandOf i) (.error { code := .length, cursor := 0 } .fresh)) ∨
    (∃ x, s.HasInput x ∧ t = s.complete (commandOf i) ((commandOf i).run s.params x)) :=
  execute_next ((exec_eq_execute i s).symm.trans h)

/-- A command on an input completes. -/
theorem exec_of_hasInput {i : Instr} {s : State} {x : List Elem} (h : s.HasInput x) :
    exec i s = .next (s.complete (commandOf i) ((commandOf i).run s.params x)) :=
  (exec_eq_execute i s).trans (execute_of_hasInput h)

end Sys2Proof.Machine
end

