-- ==== Sys2Proof/Laws/Commands.lean ====
section
/-! SUPPORT. What holds of the end of every command, whatever its input: cursors inside the input, output inside
OUT_BUF, readbacks inside their bounds (10_state.md R24, R32); and the end of each body by what fits. -/

namespace Sys2Proof.Machine

/-! ### Bounds -/

/-- A bound on the end of a command of `n` elements on an output buffer of `cap` elements; an error has a code of
its own. -/
def BodyEnd.Bounded (b : BodyEnd) (n cap : Nat) : Prop :=
  b.dict.Bounded n ∧
    match b with
    | .success out _ => out.length ≤ cap
    | .error e _ => e.code ≠ .none ∧ e.cursor ≤ n

theorem DictCount.fresh_bounded (n : Nat) : DictCount.fresh.Bounded n := by simp [DictCount.fresh, DictCount.Bounded]

theorem DictCount.Bounded.mono {d : DictCount} {m n : Nat} (h : d.Bounded m) (hmn : m ≤ n) : d.Bounded n :=
  ⟨h.1, h.2.1, le_trans h.2.2 (by omega)⟩

theorem Trace.Bounded.mono {t : Trace} {m n : Nat} (h : t.Bounded m) (hmn : m ≤ n) : t.Bounded n :=
  ⟨fun em he => ⟨le_trans (h.1 em he).1 hmn, (h.1 em he).2.mono hmn⟩,
    fun e he => ⟨(h.2.1 e he).1, le_trans (h.2.1 e he).2 hmn⟩, h.2.2.mono hmn⟩

theorem Trace.finish_bounded {t : Trace} {n : Nat} (h : t.Bounded n) (cap : Nat) : (t.finish cap).Bounded n cap := by
  rcases t.finish_cases cap with ⟨em, h1, h2⟩ | ⟨e, -, h1, h2⟩ | ⟨h0, -, h2⟩
  · have := h.1 em (List.mem_of_getElem? h1)
    rw [h2]
    exact ⟨this.2, by simp, this.1⟩
  · rw [h2]
    exact ⟨h.2.2, by simp [(h.2.1 e h1).1], (h.2.1 e h1).2⟩
  · rw [h2]
    exact ⟨h.2.2, by simpa using h0⟩

theorem plainTrace_bounded {es : List (Elem × Nat)} {n : Nat} (h : ∀ e ∈ es, e.2 ≤ n) : (plainTrace es).Bounded n := by
  refine ⟨fun em he => ?_, by simp, DictCount.fresh_bounded n⟩
  simp only [plainTrace, List.mem_map] at he
  obtain ⟨e, he, rfl⟩ := he
  exact ⟨h e he, DictCount.fresh_bounded n⟩

/-- UNPACK gives at most as many codes as bytes (R66). -/
theorem unpackCount_le (r : Residue1) (n : Nat) : unpackCount r n ≤ n := by
  unfold unpackCount
  split
  · omega
  · split <;> split <;> omega

theorem unpackTrace_bounded (r : Residue1) (b : List Byte) : (unpackTrace r b).Bounded b.length := by
  refine plainTrace_bounded fun e he => ?_
  obtain ⟨e', he', rfl⟩ := List.mem_map.mp he
  obtain ⟨j, hj, rfl⟩ := List.mem_iff_getElem.mp he'
  have hcur := unpackFrom_cursor r b 0 j hj
  have hl := unpackFrom_length r b 0
  have hle := unpackCount_le r b.length
  simp only at *
  split at hcur <;> omega

theorem packTrace_bounded (c : List Code) : (packTrace c).Bounded c.length := by
  refine plainTrace_bounded fun e he => ?_
  obtain ⟨e', he', rfl⟩ := List.mem_map.mp he
  obtain ⟨j, hj, rfl⟩ := List.mem_iff_getElem.mp he'
  have := packFrom_cursor c 0 j hj
  have hl := packFrom_length c 0
  unfold packCount at hl
  simp only at *
  split at this <;> omega

/-- Readbacks of the encoder (R93): never 4096. -/
theorem encCount_bounded (k : Nat) : (encCount k).Bounded k ∧ (encCount k).size ≤ 4095 := by
  simp only [encCount, DictCount.Bounded]
  omega

theorem flatten_take_le (P : List Pattern) (k : Nat) : (P.take k).flatten.length ≤ P.flatten.length := by
  conv_rhs => rw [← List.take_append_drop k P, List.flatten_append, List.length_append]
  omega

/-- Every cursor and readback of ENCODE's body, for any text (R93, R104). -/
theorem encodeTrace_bounded (b : List Byte) :
    (encodeTrace b).Bounded b.length ∧ (∀ em ∈ (encodeTrace b).emissions, em.dict.size ≤ 4095) ∧
      (encodeTrace b).dict.size ≤ 4095 ∧ (encodeTrace b).stop = none := by
  obtain ⟨P, cs, h⟩ := exists_greedyParse b
  have hle := h.length_le
  have hem : ∀ em ∈ (List.range cs.length).map (encEmission P cs), ∃ k, k < cs.length ∧ em = encEmission P cs k := by
    intro em he
    obtain ⟨k, hk, rfl⟩ := List.mem_map.mp he
    exact ⟨k, List.mem_range.mp hk, rfl⟩
  rw [encodeTrace_parse h]
  refine ⟨⟨fun em he => ?_, by simp, (encCount_bounded _).1.mono (by omega)⟩, fun em he => ?_,
    (encCount_bounded _).2, rfl⟩
  · obtain ⟨k, hk, rfl⟩ := hem em he
    refine ⟨?_, (encCount_bounded k).1.mono (by omega)⟩
    have := flatten_take_le P (k + 1)
    rw [h.1] at this
    exact this
  · obtain ⟨k, hk, rfl⟩ := hem em he
    exact (encCount_bounded k).2

/-- What a check's error can be: FRAMING or ELEMENT_RANGE, at a cursor inside the input. -/
theorem check_error {i : Instr} {p : Params} {x : List Elem} {e : CommandError}
    (h : (commandOf i).check p x = some e) : (e.code = .framing ∨ e.code = .elementRange) ∧ e.cursor ≤ x.length := by
  have hel : ∀ {bad}, elementCheck bad x = some e → (e.code = .framing ∨ e.code = .elementRange) ∧ e.cursor ≤ x.length := by
    intro bad he
    obtain ⟨j, rfl, hj, -⟩ := elementCheck_eq_some.mp he
    exact ⟨.inr rfl, Nat.le_of_lt hj⟩
  have hpk : packedCheck p x = some e → (e.code = .framing ∨ e.code = .elementRange) ∧ e.cursor ≤ x.length := by
    intro he
    unfold packedCheck framingCheck at he
    split at he
    · next hf =>
      split at hf
      · cases hf; cases he; exact ⟨.inl rfl, Nat.sub_le _ _⟩
      · cases hf
    · exact hel he
  cases i
  · exact hpk h
  · exact hel h
  · cases h
  · exact hpk h
  · exact hel h

/-- The end of every command is bounded. -/
theorem run_bounded (i : Instr) (p : Params) (x : List Elem) :
    ((commandOf i).run p x).Bounded x.length p.outDepth := by
  cases hc : (commandOf i).check p x with
  | some e =>
    rw [Command.run_of_check hc]
    obtain ⟨h1, h2⟩ := check_error hc
    exact ⟨DictCount.fresh_bounded _, by rcases h1 with h1 | h1 <;> simp [h1], h2⟩
  | none =>
    rw [Command.run_of_pass hc]
    apply Trace.finish_bounded
    cases i with
    | unpack => exact (unpackTrace_bounded p.residue1 (x.map byteOf)).mono (by simp)
    | pack => exact (packTrace_bounded (x.map codeOf)).mono (by simp)
    | decode => exact (decodeTrace_bound _).mono (by simp)
    | decodePacked =>
      refine (decodeTrace_bound _).mono ?_
      have := unpackCount_le p.residue1 (x.map byteOf).length
      rw [← unpackFrom_length p.residue1 _ 0] at this
      simp only [List.length_map, unpackCodes] at this ⊢
      omega
    | encode => exact (encodeTrace_bounded (x.map byteOf)).1.mono (by simp)

/-- The completion that a command's next state is, bounded. -/
theorem exec_bounded {i : Instr} {s t : State} (h : exec i s = .next t) :
    ∃ b : BodyEnd, b.Bounded s.params.inDepth s.params.outDepth ∧ t = s.complete (commandOf i) b := by
  rcases exec_next h with ⟨-, rfl⟩ | ⟨x, hx, rfl⟩
  · exact ⟨.error { code := .length, cursor := 0 } .fresh, ⟨DictCount.fresh_bounded _, by simp⟩, rfl⟩
  · obtain ⟨h1, h2⟩ := run_bounded i s.params x
    refine ⟨_, ⟨h1.mono hx.2.1, ?_⟩, rfl⟩
    cases hr : (commandOf i).run s.params x with
    | success out d => rw [hr] at h2; exact h2
    | error e d => rw [hr] at h2; exact ⟨h2.1, le_trans h2.2 hx.2.1⟩

/-! ### Ends by what fits -/

/-- DECODE's body on accepted codes whose patterns fit. -/
theorem decodeTrace_finish {ks : List Nat} {P : List Pattern} {cap : Nat} (hv : CodesValid ks) (hd : DecodesTo ks P)
    (hfit : P.flatten.length ≤ cap) :
    (decodeTrace ks).finish cap = .success (P.flatten.map byteElem)
      { size := 256 + (ks.length - 1 - 3840 * ((ks.length - 2) / 3840)), resets := (ks.length - 2) / 3840 } := by
  by_cases hne : ks = []
  · subst hne
    have hP : P = [] := List.length_eq_zero_iff.mp hd.1
    subst hP
    rfl
  · have htake : P.take ks.length = P := List.take_of_length_le (by rw [hd.1])
    rw [decodeTrace_accepted hne hv hd, Trace.finish_success _ rfl]
    · rw [decEmissions_values P (by rw [hd.1]), htake]
    · rw [decEmissions_length P (by rw [hd.1]), htake]
      exact hfit

/-- The rows of an accepted prefix of `n` codes, as rows of the whole stream. -/
theorem accepted_prefix {ks : List Nat} {n : Nat} {P : List Pattern} (hv : CodesValid (ks.take n))
    (hd : DecodesTo (ks.take n) P) (j : Nat) (h : j < ks.length) (hj : j < n) :
    codeAllowed j ks[j] ∧ PatternAt P j ks[j] := by
  have hl : j < (ks.take n).length := by rw [List.length_take]; omega
  have h1 := hv j hl
  have h2 := (decodesTo_iff.mp hd).2 j hl
  rw [List.getElem_take] at h1 h2
  exact ⟨h1, h2⟩

/-- The decoder's body at the first code that is not accepted, when the patterns before it fit. -/
theorem decodeTrace_finish_invalid {ks : List Nat} {P : List Pattern} {i cap : Nat} (h : i < ks.length)
    (hbad : ¬ codeAllowed i ks[i]) (hv : CodesValid (ks.take i)) (hd : DecodesTo (ks.take i) P)
    (hfit : P.flatten.length ≤ cap) :
    (decodeTrace ks).finish cap = .error { code := .invalidCode, cursor := i } (decCount i) := by
  have hPl : P.length = i := by rw [hd.1, List.length_take]; omega
  rw [decodeTrace_invalid h hbad (accepted_prefix hv hd)]
  refine Trace.finish_stop ?_ rfl
  rw [decEmissions_length P (by omega), ← hPl, List.take_length]
  exact hfit

/-- The decoder's body at the code whose pattern does not fit, the codes up to it being accepted. -/
theorem decodeTrace_finish_overflow {ks : List Nat} {P : List Pattern} {i cap : Nat} (hi : i < ks.length)
    (hv : CodesValid (ks.take (i + 1))) (hd : DecodesTo (ks.take (i + 1)) P)
    (hfit : (P.take i).flatten.length ≤ cap) (hov : cap < P.flatten.length) :
    (decodeTrace ks).finish cap = .error { code := .outputOverflow, cursor := i } (decCount i) := by
  have hPl : P.length = i + 1 := by rw [hd.1, List.length_take]; omega
  have hpre := decEmissions_length P (m := i) (by omega)
  have hfl : P.flatten.length = (P.take i).flatten.length + (P.getD i []).length := by
    conv_lhs => rw [← List.take_length (l := P), hPl]
    exact flatten_take_succ (by omega)
  have hlt : cap - (decEmissions P i).length < (emitPattern (P.getD i []) i (decCount i)).length := by
    rw [emitPattern_length]; omega
  obtain ⟨hcur, hdict⟩ := emitPattern_mem (List.getElem_mem hlt)
  rw [decodeTrace_run (m := i + 1) (by omega) (by omega) (accepted_prefix hv hd),
    Trace.finish_overflow (em := (emitPattern (P.getD i []) i (decCount i))[cap - (decEmissions P i).length]),
    hcur, hdict]
  rw [Trace.after_emissions, decEmissions_succ, List.append_assoc, List.getElem?_append_right (by omega),
    List.getElem?_append_left hlt, List.getElem?_eq_getElem hlt]

/-- ENCODE's body when the codes of the parse fit. -/
theorem encodeTrace_finish {b : List Byte} {P : List Pattern} {cs : List Nat} {cap : Nat} (h : GreedyParse b P cs)
    (hfit : cs.length ≤ cap) :
    (encodeTrace b).finish cap = .success (cs.map (BitVec.ofNat 16)) (encCount (cs.length - 1)) := by
  rw [encodeTrace_parse h, Trace.finish_success (by simpa using hfit) rfl]
  congr 1
  rw [List.map_map]
  apply List.ext_getElem (by simp)
  intro i h1 h2
  simp only [List.getElem_map, Function.comp_apply, List.getElem_range, encEmission]
  simp at h2
  simp [h2]

/-! ### A command's next state by the end of its body -/

/-- The next state of a command whose end is a success. -/
theorem exec_of_success {i : Instr} {s : State} {x out : List Elem} {d : DictCount} (hp : s.params.wf = true)
    (hx : s.HasInput x) (h : (commandOf i).run s.params x = .success out d) :
    ∃ t, exec i s = .next t ∧ t.Succeeded out ∧ (usesDict i = false → s.KeepsDict t) ∧
      (usesDict i = true → t.ShowsDict d.size d.resets) ∧
      ∀ j, t.outElem j = if h : j < out.length then out[j] else s.outElem j := by
  have hd := params_depth hp
  have hb := run_bounded i s.params x
  have hx3 := hx.2.1
  obtain ⟨h1, h2, h3⟩ := hb.1
  have hb2 := hb.2
  rw [h] at h1 h2 h3 hb2
  simp only [BodyEnd.dict] at *
  refine ⟨_, exec_of_hasInput hx, ?_, fun hu => ?_, fun hu => ?_, fun j => ?_⟩ <;> rw [h]
  · exact State.completeOk_succeeded _ _ (by omega)
  · exact State.complete_keepsDict s (by rw [commandOf_hasDict, hu]) _
  · exact State.complete_showsDict s (by rw [commandOf_hasDict, hu]) (.success out d)
      (by simp only [BodyEnd.dict]; omega) (by simp only [BodyEnd.dict]; omega)
  · exact State.completeOk_outElem _ _ _ _

/-- The next state of a command whose end is an error. -/
theorem exec_of_error {i : Instr} {s : State} {x : List Elem} {e : CommandError} {d : DictCount}
    (hp : s.params.wf = true) (hx : s.HasInput x) (h : (commandOf i).run s.params x = .error e d) :
    ∃ t, exec i s = .next t ∧ t.Failed e.code e.cursor ∧ (usesDict i = false → s.KeepsDict t) ∧
      (usesDict i = true → t.ShowsDict d.size d.resets) := by
  have hd := params_depth hp
  have hb := run_bounded i s.params x
  have hx3 := hx.2.1
  obtain ⟨h1, h2, h3⟩ := hb.1
  have hb2 := hb.2
  rw [h] at h1 h2 h3 hb2
  simp only [BodyEnd.dict] at *
  refine ⟨_, exec_of_hasInput hx, ?_, fun hu => ?_, fun hu => ?_⟩ <;> rw [h]
  · exact State.completeError_failed _ _ (by omega)
  · exact State.complete_keepsDict s (by rw [commandOf_hasDict, hu]) _
  · exact State.complete_showsDict s (by rw [commandOf_hasDict, hu]) (.error e d)
      (by simp only [BodyEnd.dict]; omega) (by simp only [BodyEnd.dict]; omega)

/-- A state offers one output. -/
theorem State.Succeeded.unique {t : State} {y z : List Elem} (hy : t.Succeeded y) (hz : t.Succeeded z) : y = z := by
  obtain ⟨-, -, -, -, h1, h2⟩ := hy
  obtain ⟨-, -, -, -, g1, g2⟩ := hz
  apply List.ext_getElem (by omega)
  intro i a1 a2
  rw [← h2 i a1, ← g2 i a2]

/-! ### The run of each command on an input in range -/

theorem unpack_run {p : Params} {b : List Byte} (h : ¬ framingBad p b.length) :
    (commandOf .unpack).run p (b.map byteElem) = (unpackTrace p.residue1 b).finish p.outDepth := by
  rw [Command.run_of_pass (packedCheck_bytes h)]
  simp only [commandOf, unpackCommand, map_byteOf_byteElem]

theorem pack_run {p : Params} {c : List Code} :
    (commandOf .pack).run p (c.map codeElem) = (packTrace c).finish p.outDepth := by
  have hc : (commandOf .pack).check p (c.map codeElem) = none := by
    show elementCheck _ _ = _
    simp [elementCheck_eq_none]
  rw [Command.run_of_pass hc]
  simp only [commandOf, packCommand, map_codeOf_codeElem]

theorem decode_run {p : Params} {x : List Elem} :
    (commandOf .decode).run p x = (decodeTrace (x.map (·.toNat))).finish p.outDepth := rfl

theorem decodePacked_run {p : Params} {b : List Byte} (h : ¬ framingBad p b.length) :
    (commandOf .decodePacked).run p (b.map byteElem) =
      (decodeTrace ((unpackCodes p.residue1 b).map (·.toNat))).finish p.outDepth := by
  rw [Command.run_of_pass (packedCheck_bytes h)]
  simp only [commandOf, decodePackedCommand, map_byteOf_byteElem]

theorem encode_run {p : Params} {b : List Byte} :
    (commandOf .encode).run p (b.map byteElem) = (encodeTrace b).finish p.outDepth := by
  have hc : (commandOf .encode).check p (b.map byteElem) = none := by
    show elementCheck _ _ = _
    simp [elementCheck_eq_none]
  rw [Command.run_of_pass hc]
  simp only [commandOf, encodeCommand, map_byteOf_byteElem]

end Sys2Proof.Machine
end

