-- ==== Sys2Proof/Laws/PerInstr.lean ====
section
/-! SUPPORT. Statements about every command as syntax, one lemma per constructor. -/

namespace Sys2Proof.Laws.EncodingShape

/-- A command is well formed, its word has RSVD = 0 above its opcode (30_encoding.md R53, R54), and that word, as the
opcode table numbers its bits, decodes to it. -/
def Statement (i : Instr) : Prop :=
  i.wf = true ∧ (encode i).extractLsb' 4 28 = 0#28 ∧ (encode i).extractLsb' 0 4 = i.op ∧
    decodeTableWord 32 (encode i).toNat = some i

theorem unpack : Statement .unpack := by unfold Statement; decide

theorem pack : Statement .pack := by unfold Statement; decide

theorem decode : Statement .decode := by unfold Statement; decide

theorem decodePacked : Statement .decodePacked := by unfold Statement; decide

theorem encode : Statement .encode := by unfold Statement; decide

end Sys2Proof.Laws.EncodingShape
end

