-- ==== Sys2Proof/Tests/Slice0.lean ====
section
/-! SUPPORT. The model's own tests: well-formedness, decoding of words written out from the spec, one step on the
spec's own vectors (95_test_vectors.md), and a witness for the hypotheses of each statement. -/

namespace Sys2Proof.Tests

open Sys2Proof.Machine

/-! ### Well-formedness: an ill-formed term for each check -/

/-- A set bit of RSVD is refused (R55). -/
theorem test_rsvd_bit_is_ill_formed : CommandWord.wf { op := 1#4, rsvd := 1#28 } = false := by decide

/-- OP 0x0 and OP 0x6 are refused (R55). -/
theorem test_op_zero_is_ill_formed : CommandWord.wf { op := 0#4, rsvd := 0#28 } = false := by decide
theorem test_op_six_is_ill_formed : CommandWord.wf { op := 6#4, rsvd := 0#28 } = false := by decide
theorem test_op_five_is_well_formed : CommandWord.wf { op := 5#4, rsvd := 0#28 } = true := by decide

/-- A depth of 0, or above 2^24, is no depth (R5). -/
theorem test_in_depth_zero_is_ill_formed : Params.wf ⟨0, 64, .fault⟩ = false := by decide
theorem test_out_depth_zero_is_ill_formed : Params.wf ⟨64, 0, .fault⟩ = false := by decide
theorem test_in_depth_too_big_is_ill_formed : Params.wf ⟨16777217, 64, .drop⟩ = false := by decide
theorem test_out_depth_too_big_is_ill_formed : Params.wf ⟨64, 16777217, .drop⟩ = false := by decide
theorem test_greatest_depths_are_well_formed : Params.wf ⟨16777216, 16777216, .overlap⟩ = true := by decide

/-! ### Decoding: RSVD in bits 31..4 above OP in bits 3..0, written out from R53 and R54 -/

theorem test_decode_unpack :
    decodeWord (0b0000000000000000000000000000#28 ++ 0b0001#4 : BitVec 32) = .ok .unpack := by decide
theorem test_decode_pack :
    decodeWord (0b0000000000000000000000000000#28 ++ 0b0010#4 : BitVec 32) = .ok .pack := by decide
theorem test_decode_decode :
    decodeWord (0b0000000000000000000000000000#28 ++ 0b0011#4 : BitVec 32) = .ok .decode := by decide
theorem test_decode_decodePacked :
    decodeWord (0b0000000000000000000000000000#28 ++ 0b0100#4 : BitVec 32) = .ok .decodePacked := by decide
theorem test_decode_encode :
    decodeWord (0b0000000000000000000000000000#28 ++ 0b0101#4 : BitVec 32) = .ok .encode := by decide

/-- The refused words are refused by name (R55, V-S3). -/
theorem test_decode_op_zero : decodeWord 0x00000000#32 = .error (.reservedOpcode 0#4) := by decide
theorem test_decode_op_fifteen : decodeWord 0x0000000F#32 = .error (.reservedOpcode 15#4) := by decide
theorem test_decode_rsvd : decodeWord 0x00000011#32 = .error (.reservedBitSet 1#28) := by decide
theorem test_decode_top_bit : decodeWord 0x80000001#32 = .error (.reservedBitSet 0x8000000#28) := by decide

/-! ### Small states -/

/-- The block of the spec's programs: both depths 64, UNPACK_RESIDUE1 = FAULT (95_test_vectors.md section 8). -/
def bench : Params := ⟨64, 64, .fault⟩

/-- A block that holds the input `x` and runs a command on it, opcode `op`. -/
def loaded (p : Params) (x : List Elem) (op : BitVec 4 := 1#4) : State :=
  { State.resetFor p with
    inBuf := Memory.writeFrom [] 0 x
    inLen := BitVec.ofNat 32 x.length
    engState := .busy
    latchedOp := op
    latchedLen := BitVec.ofNat 32 x.length }

/-- The next state of an outcome, if it is one. -/
def after (o : Host.Outcome State Fault Refusal) : Option State :=
  match o with
  | .next s => some s
  | .fault _ => none
  | .refused _ => none

/-- STATUS, OUT_LEN, ERR_INDEX, DICT_SIZE, DICT_RESETS and the output elements of a next state. -/
structure Report where
  status : Nat
  outLen : Nat
  errIndex : Nat
  dictSize : Nat
  dictResets : Nat
  out : List Nat
  deriving DecidableEq, Repr

def report (o : Host.Outcome State Fault Refusal) : Option Report :=
  (after o).map fun t =>
    { status := t.statusWord.toNat, outLen := t.outLen.toNat, errIndex := t.errIndex.toNat,
      dictSize := t.dictSize.toNat, dictResets := t.dictResets.toNat, out := t.outBuf.map fun c => c.2.toNat }

/-! ### One step on the spec's vectors -/

/-- V-U7: a group of three bytes and a tail of two. -/
theorem test_unpack_group_and_tail :
    report (exec .unpack (loaded bench [0xAB#16, 0xCD#16, 0xEF#16, 0x01#16, 0x23#16])) =
      some ⟨0x002, 3, 0, 256, 0, [0xABC, 0xDEF, 0x123]⟩ := by decide

/-- V-U13: FRAMING wins over ELEMENT_RANGE. -/
theorem test_unpack_framing_first :
    report (exec .unpack (loaded bench [0x1FF#16, 0x02#16, 0x03#16, 0x04#16])) =
      some ⟨0x042, 0, 3, 256, 0, []⟩ := by decide

/-- V-P7: one group and a tail. -/
theorem test_pack_group_and_tail :
    report (exec .pack (loaded bench [0x123#16, 0x456#16, 0x789#16])) =
      some ⟨0x002, 5, 0, 256, 0, [0x12, 0x34, 0x56, 0x07, 0x89]⟩ := by decide

/-- V-P11: the second tail byte does not fit. -/
theorem test_pack_overflow :
    report (exec .pack (loaded ⟨64, 4, .fault⟩ [1#16, 2#16, 3#16])) = some ⟨0x062, 0, 2, 256, 0, []⟩ := by decide

/-- V-D3: code 258 is self-referential. -/
theorem test_decode_self_reference :
    report (exec .decode (loaded bench [65#16, 66#16, 256#16, 258#16])) =
      some ⟨0x002, 7, 0, 259, 0, [0x41, 0x42, 0x41, 0x42, 0x41, 0x42, 0x41]⟩ := by decide +kernel

/-- V-D13: the third pattern does not fit, and its code is not registered. -/
theorem test_decode_overflow :
    report (exec .decode (loaded ⟨64, 4, .fault⟩ [65#16, 256#16, 257#16])) =
      some ⟨0x062, 0, 2, 257, 0, []⟩ := by decide +kernel

/-- V-K12: q = [65, 256, 65]. -/
theorem test_decodePacked_output :
    report (exec .decodePacked (loaded bench [0x04#16, 0x11#16, 0x00#16, 0x00#16, 0x41#16])) =
      some ⟨0x002, 4, 0, 258, 0, [0x41, 0x41, 0x41, 0x41]⟩ := by decide +kernel

/-- V-K8: q = [16, 515, 772], whose code 1 is invalid; the cursor counts codes. -/
theorem test_decodePacked_invalid_code :
    report (exec .decodePacked (loaded ⟨64, 64, .overlap⟩ [0x01#16, 0x02#16, 0x03#16, 0x04#16])) =
      some ⟨0x012, 0, 1, 256, 0, []⟩ := by decide +kernel

/-- V-E5: the codes of "ABABABA". -/
theorem test_encode_abababa :
    report (exec .encode (loaded bench [0x41#16, 0x42#16, 0x41#16, 0x42#16, 0x41#16, 0x42#16, 0x41#16])) =
      some ⟨0x002, 4, 0, 259, 0, [65, 66, 256, 258]⟩ := by decide +kernel

/-- V-E13: the flush does not fit; its cursor is n. -/
theorem test_encode_overflow :
    report (exec .encode (loaded ⟨64, 2, .fault⟩ [0x41#16, 0x42#16, 0x43#16])) =
      some ⟨0x062, 0, 3, 258, 0, []⟩ := by decide +kernel

/-! ### The step and the host port on the spec's vectors -/

/-- The first step after reset runs each command that is placed as the next instruction, here on no input. -/
theorem test_first_step_runs_unpack :
    (after (step (State.reset.withFetchWord 32 1))).map (·.statusWord) = some 2#32 := by decide
theorem test_first_step_runs_encode :
    (after (step (State.reset.withFetchWord 32 5))).map (·.statusWord) = some 2#32 := by decide
/-- A word that names no command is refused by the CMD write itself (R99). -/
theorem test_first_step_refuses_six :
    (after (step (State.reset.withFetchWord 32 6))).map (·.statusWord) = some 0x22#32 := by decide

/-- An IDLE block with input elements `x` and the given inputs to come. -/
def idleWith (events : List Event) (x : List Elem := []) : State :=
  { loaded bench x with engState := .idle, latchedOp := 0#4, latchedLen := 0#32, pending := events }

/-- A BUSY block that runs UNPACK on `x`, and the given inputs to come. -/
def busyWith (events : List Event) (x : List Elem := []) : State := { loaded bench x with pending := events }

/-- What the next step's transaction returns. -/
def returned (s : State) : Option Word := (after (step s)).bind (·.response)

/-- V-S1, V-S2: the registers after reset. -/
theorem test_reset_param : returned (idleWith [.host (.read 0x00000001#32)]) = some 0x0000000C#32 := by decide
theorem test_reset_dict_size : returned (idleWith [.host (.read 0x0000000A#32)]) = some 0x00000100#32 := by decide
/-- V-S5: only IN[0] is written, IN_LEN = 2. -/
theorem test_unwritten_input_faults :
    (match exec .encode { loaded bench [7#16] with latchedLen := 2#32 } with
      | .fault f => some f
      | _ => none) = some (.unwrittenInput 1) := by decide
/-- V-S6: an overrun. -/
theorem test_overrun :
    (after (step (busyWith [.host (.write 0x00000005#32 1#32)]))).map (fun t => (t.ovr, t.engState)) =
      some (true, .busy) := by decide
/-- V-S7: writes of the input while BUSY are dropped. -/
theorem test_busy_write_is_dropped :
    (after (step (busyWith [.host (.write 0x01000000#32 0x55#32)] [7#16]))).map (·.inBuf) = some [(0, 7#16)] := by
  decide
/-- V-S9: DONE and ERR are cleared, OVR is kept. -/
theorem test_status_write_clears_done_and_err :
    (after (step { idleWith [.host (.write 0x00000006#32 2#32)] with
      done := true, err := .invalidCode, ovr := true })).map (·.statusWord) = some 0x00000100#32 := by decide
/-- V-S10: a soft reset that leaves IRQ_EN set. -/
theorem test_soft_reset :
    (after (step { idleWith [.host (.write 0x00000004#32 3#32)] with
      done := true, irqEn := true, inLen := 7#32, outBuf := [(0, 9#16)] })).map
      (fun t => ([t.statusWord, t.inLen, t.dictSize, t.ctrlWord], t.irq, t.outBuf)) =
      some ([0#32, 0#32, 256#32, 1#32], false, [(0, 9#16)]) := by decide
/-- V-S11: OUT_BUF and ID ignore writes. -/
theorem test_output_ignores_writes :
    (after (step (idleWith [.host (.write 0x02000000#32 0x1234#32)]))).map (·.outBuf) = some [] := by decide

/-! ### Witnesses: a concrete state and operands that meet the hypotheses of each statement -/

theorem loaded_hasInput {p : Params} {x : List Elem} (h : x.length ≤ p.inDepth) (h32 : x.length < 2 ^ 32)
    (op : BitVec 4) : (loaded p x op).HasInput x := by
  refine ⟨by simpa [loaded] using h32, h, fun i hi => Memory.read?_writeFrom_of_lt [] hi⟩

/-- An input that fits the block `bench`. -/
theorem bench_hasInput (x : List Elem) (h : x.length ≤ 64) (op : BitVec 4 := 1#4) : (loaded bench x op).HasInput x :=
  loaded_hasInput h (by omega) op

/-- CmdWriteIssues, OverrunIsSticky: BUSY; IDLE with an illegal word at each edge; IDLE with the legal words 1, 5. -/
theorem test_witness_CmdWriteIssues_busy :
    (busyWith [.host (.write (regAddr .cmd) 1#32)]).engState = .busy := by decide
theorem test_witness_CmdWriteIssues_illegal :
    (idleWith [.host (.write (regAddr .cmd) 0x10#32)]).engState = .idle ∧
      [0#32, 6#32, 15#32, 0x11#32, 0x80000005#32].all (fun w => decide
        (w.extractLsb' 4 28 ≠ 0#28 ∨ ¬ (1 ≤ (w.extractLsb' 0 4).toNat ∧ (w.extractLsb' 0 4).toNat ≤ 5))) := by decide
theorem test_witness_CmdWriteIssues_legal :
    (idleWith [.host (.write (regAddr .cmd) 5#32)]).engState = .idle ∧
      [1#32, 5#32].all (fun w => decide
        (w.extractLsb' 4 28 = 0#28 ∧ 1 ≤ (w.extractLsb' 0 4).toNat ∧ (w.extractLsb' 0 4).toNat ≤ 5)) := by decide

/-- OverrunIsSticky: OVR falls at a STATUS write of bit 8, at a soft reset and at rst. -/
theorem test_witness_OverrunIsSticky :
    ∀ e ∈ [Event.host (.write (regAddr .status) 0x100#32), .host (.write (regAddr .ctrl) 2#32), .rst],
      (after (step { busyWith [e] with ovr := true })).map (·.ovr) = some false := by decide

/-- StepRunsLatchedCommand: each command's opcode names it; the four clauses' states. -/
theorem test_witness_StepRunsLatchedCommand :
    (∀ p ∈ [(1#4, Instr.unpack), (2#4, .pack), (3#4, .decode), (4#4, .decodePacked), (5#4, .encode)],
      (loaded bench [] p.1).engState = .busy ∧ (decodeOp p.1).toOption = some p.2) ∧
    (busyWith []).pending = [] ∧ (busyWith [.engine]).pending = [.engine] ∧
    (idleWith []).engState = .idle ∧ (idleWith [.engine]).pending = [.engine] := by decide

theorem test_witness_IssuedCommandRuns :
    (idleWith [.host (.write (regAddr .cmd) (encode .encode)), .engine, .rst]).engState = .idle := by decide

/-- The invariant of a BUSY block with one written element. -/
theorem busyWith_inv (events : List Event) (x : List Elem) (h : x.length ≤ 64) : (busyWith events x).Inv where
  params_wf := by
    show bench.wf = true
    decide
  inBuf_wf := Memory.wf_writeFrom x (m := []) (by simp [Memory.wf]) 0
  outBuf_wf := by simp [busyWith, loaded, State.resetFor, Memory.wf]
  inBuf_lt := Memory.lt_writeFrom x (m := []) (by simp) (by simpa [busyWith, loaded, State.resetFor, bench] using h)
  outBuf_lt := by simp [busyWith, loaded, State.resetFor]
  busy_op := fun _ => ⟨.unpack, rfl⟩
  busy_done := fun _ => rfl
  err_done := fun h => absurd rfl h
  outLen_le := by simp [busyWith, loaded, State.resetFor]
  errIndex_le := by simp [busyWith, loaded, State.resetFor]
  dictSize_ge := by simp [busyWith, loaded, State.resetFor]
  dictSize_le := by simp [busyWith, loaded, State.resetFor]
  dictResets_lt := by simp [busyWith, loaded, State.resetFor]
  inFill_lt := by simp [busyWith, loaded, State.resetFor]
  outFill_lt := by simp [busyWith, loaded, State.resetFor]

/-- AcceptedCommandCompletes, StepKeepsInvariant: a BUSY state of the invariant, its input written. -/
theorem test_witness_AcceptedCommandCompletes :
    (busyWith [.rst] [7#16]).Inv ∧ (busyWith [.rst] [7#16]).engState = .busy ∧
      ∀ j, j < (busyWith [.rst] [7#16]).latchedLen.toNat → (busyWith [.rst] [7#16]).written j = true :=
  ⟨busyWith_inv _ _ (by decide), rfl, by decide⟩

/-- The other premise: a length that does not fit (65 > 64), which needs no written element. -/
theorem test_witness_LengthError :
    ({ busyWith [] with latchedLen := 65#32 } : State).params.inDepth <
      ({ busyWith [] with latchedLen := 65#32 } : State).latchedLen.toNat := by decide

theorem test_witness_StepKeepsInvariant :
    (busyWith [.engine] [7#16]).Inv ∧ ∃ t, step (busyWith [.engine] [7#16]) = .next t :=
  ⟨busyWith_inv _ _ (by decide), _, (step_engine rfl).trans ((engineTurn_busy rfl rfl).trans
    (exec_of_hasInput (i := .unpack) (bench_hasInput [7#16] (by decide))))⟩

theorem test_witness_HardResetSetsTheTable : (busyWith [.rst]).pending = .rst :: [] := by decide

/-- SoftResetResets, CtrlRegister: a soft reset of a BUSY and of an IDLE block, and a plain CTRL write. -/
theorem test_witness_SoftResetResets :
    (2#32).getLsbD 1 = true ∧ (3#32).getLsbD 1 = true ∧ (1#32).getLsbD 1 = false ∧
      (idleWith [.host (.write (regAddr .ctrl) 3#32)]).engState = .idle ∧
      (busyWith [.host (.write (regAddr .ctrl) 2#32)]).pending = [.host (.write (regAddr .ctrl) 2#32)] := by decide

/-- Transactions of both kinds are pending in some state. -/
theorem test_witness_EveryTransactionCompletes :
    (busyWith [.host (.read 0xFFFFFFFF#32)]).pending = [.host (.read 0xFFFFFFFF#32)] ∧
      (idleWith [.host (.write 0#32 1#32)]).pending = [.host (.write 0#32 1#32)] := by decide

/-- ReadsHaveNoSideEffect, BusyReads: a read of OUT_LEN while BUSY and while IDLE. -/
theorem test_witness_ReadsHaveNoSideEffect :
    (busyWith [.host (.read (regAddr .outLen))]).engState = .busy ∧
      (idleWith [.host (.read (regAddr .outLen))]).engState = .idle := by decide

/-- RegisterAddressesRead, IdentificationRegistersAreConstant, ReadOnlyTargetsIgnoreWrites, StatusBits, CtrlRegister,
InLenRegister: every register's address is the one R39 gives it, the first and the last included. -/
theorem test_witness_RegisterAddressesRead :
    ∀ p ∈ [(0x0, Reg.id), (0x1, .param), (0x2, .inCap), (0x3, .outCap), (0x4, .ctrl), (0x5, .cmd), (0x6, .status),
      (0x7, .inLen), (0x8, .outLen), (0x9, .errIndex), (0xA, .dictSize), (0xB, .dictResets)],
      regAddr p.2 = BitVec.ofNat 32 p.1 ∧
        (idleWith [.host (.read (BitVec.ofNat 32 p.1))]).pending = [.host (.read (regAddr p.2))] := by decide

/-- HolesReadZeroAndIgnoreWrites: both ends of each hole, at depth 64. -/
theorem test_witness_HolesReadZeroAndIgnoreWrites :
    bench.wf = true ∧
    [0x0000000C#32, 0x00FFFFFF#32, 0x01000040#32, 0x01FFFFFF#32, 0x02000040#32, 0x02FFFFFF#32, 0x03000000#32,
      0xFFFFFFFF#32].all (fun a : Word => decide
      ((0x0000000C ≤ a.toNat ∧ a.toNat < 0x01000000 ∨
        0x01000000 + bench.inDepth ≤ a.toNat ∧ a.toNat < 0x02000000 ∨
        0x02000000 + bench.outDepth ≤ a.toNat ∧ a.toNat < 0x03000000 ∨ 0x03000000 ≤ a.toNat) ∧
      target bench a = .hole)) := by decide

/-- The address beside each hole is none. -/
theorem test_holes_end_where_the_map_says :
    [0x0000000B#32, 0x01000000#32, 0x0100003F#32, 0x02000000#32, 0x0200003F#32].all
      (fun a : Word => decide (target bench a ≠ .hole)) := by decide

/-- InBufWindow, OutBufWindowReads, BusyReads, ReadOnlyTargetsIgnoreWrites: the first and the last element. -/
theorem test_witness_InBufWindow :
    bench.wf = true ∧ ∀ i ∈ [0, 63], i < bench.inDepth ∧ i < bench.outDepth ∧
      (idleWith [.host (.write (inAddr i) 7#32)]).engState = .idle ∧
      (busyWith [.host (.write (inAddr i) 7#32)]).engState = .busy ∧
      (idleWith [.host (.read (outAddr i))]).pending = [.host (.read (0x02000000#32 + BitVec.ofNat 32 i))] := by
  decide

/-- InputLockedWhileBusy: a BUSY block's transactions answer a next state. -/
theorem test_witness_InputLockedWhileBusy :
    ∀ e ∈ [Transaction.write (regAddr .inLen) 9#32, .write (regAddr .cmd) 1#32, .write (regAddr .ctrl) 2#32,
      .write (regAddr .ctrl) 1#32, .write (regAddr .status) 0x100#32],
      (busyWith [.host e]).engState = .busy ∧ (after (step (busyWith [.host e]))).isSome = true := by decide

/-- ResultsStayUntilNextCommand: an IDLE block with quiet inputs of each kind. -/
theorem test_witness_ResultsStayUntilNextCommand :
    let s := idleWith [.host (.read 0x02000000#32), .host (.write (regAddr .status) 0x102#32),
      .host (.write (regAddr .ctrl) 1#32), .host (.write (inAddr 0) 5#32), .engine]
    s.engState = .idle ∧ (∀ e ∈ s.pending, quietEvent s.params e) ∧ (after (runSteps 5 s)).isSome = true := by
  refine ⟨rfl, ?_, by decide⟩
  intro e he
  simp only [idleWith, List.mem_cons, List.not_mem_nil, or_false] at he
  rcases he with rfl | rfl | rfl | rfl | rfl <;> simp only [quietEvent] <;> decide

/-- InterruptLineCauses: irq rises at a completion, at a refused CMD write and at a CTRL write, and falls at a STATUS
write, an acceptance, a CTRL write and rst. -/
theorem test_witness_InterruptLineCauses_rise :
    (after (step { busyWith [.engine] with irqEn := true })).map (·.irq) = some true ∧
    (after (step { idleWith [.host (.write (regAddr .cmd) 0#32)] with irqEn := true })).map (·.irq) = some true ∧
    (after (step { idleWith [.host (.write (regAddr .ctrl) 1#32)] with done := true })).map (·.irq) = some true := by
  decide
theorem test_witness_InterruptLineCauses_fall :
    ∀ e ∈ [Event.host (.write (regAddr .status) 2#32), .host (.write (regAddr .cmd) 1#32),
      .host (.write (regAddr .ctrl) 0#32), .host (.write (regAddr .ctrl) 3#32), .rst],
      ({ idleWith [e] with irqEn := true, done := true } : State).irq = true ∧
      (after (step { idleWith [e] with irqEn := true, done := true })).map (·.irq) = some false := by decide

theorem test_witness_AckClearsStatus :
    (idleWith [.host ackLine.transaction]).pending = [.host (.write 0x00000006#32 0x00000102#32)] := by decide

/-! #### Witnesses about commands -/

/-- EveryCommandCompletes, CommandsKeepTheFrame, PackerKeepsDictRegisters, the two DictSizeRange statements: every
command answers a next state on a written input. -/
theorem test_witness_EveryCommandCompletes (i : Instr) : ∃ t, exec i (loaded bench [0x41#16, 0x42#16]) = .next t :=
  ⟨_, exec_of_hasInput (bench_hasInput _ (by decide))⟩

/-- SuccessKeepsOutputAbove: DECODE of [65]. ErrorOffersNoOutput: DECODE of [256] (V-D2, V-D8). -/
theorem test_witness_SuccessKeepsOutputAbove :
    bench.wf = true ∧ (after (exec .decode (loaded bench [65#16]))).map (·.err) = some .none ∧
      (after (exec .decode (loaded bench [256#16]))).map (·.err) = some .invalidCode := by decide

/-- FramingError: the shortest framing error, n = 4 (V-U8); and both kinds raise it. -/
theorem test_witness_FramingError :
    (loaded bench [1#16, 2#16, 3#16, 4#16]).HasInput [1#16, 2#16, 3#16, 4#16] ∧ framingBad bench 4 ∧
      (after (exec .unpack (loaded bench [1#16, 2#16, 3#16, 4#16]))).map (·.err) = some .framing :=
  ⟨bench_hasInput _ (by decide), ⟨rfl, by decide, by decide⟩, by decide⟩

/-- ElementRangeError: the least element out of range of each kind, at index 1 after the greatest in range. -/
theorem test_witness_ElementRangeError :
    (loaded bench [0xFF#16, 0x100#16]).HasInput [0xFF#16, 0x100#16] ∧ ¬ framingBad bench 2 ∧
      (loaded bench [0xFFF#16, 0x1000#16]).HasInput [0xFFF#16, 0x1000#16] ∧
      (∀ i ∈ [Instr.unpack, .decodePacked, .encode],
        (after (exec i (loaded bench [0xFF#16, 0x100#16]))).map (·.errIndex) = some 1#32) ∧
      (after (exec .pack (loaded bench [0xFFF#16, 0x1000#16]))).map (·.err) = some .elementRange :=
  ⟨bench_hasInput _ (by decide), by rintro ⟨-, h, -⟩; omega, bench_hasInput _ (by decide), by decide, by decide⟩

/-- ResultDependsOnlyOnInput: two states that differ in what lies beyond the input and in OUT_BUF. -/
theorem test_witness_ResultDependsOnlyOnInput :
    (loaded bench [0x41#16]).HasInput [0x41#16] ∧
      ({ loaded bench [0x41#16] with outBuf := [(5, 1#16)], dictSize := 300#32 } : State).HasInput [0x41#16] ∧
      ∃ t, exec .encode (loaded bench [0x41#16]) = .next t :=
  ⟨bench_hasInput _ (by decide), bench_hasInput [0x41#16] (by decide), _,
    exec_of_hasInput (bench_hasInput _ (by decide))⟩

/-- UnpackOutput: five bytes, a group and a tail; UnpackOverflow: OUT_DEPTH 1 (inside the group) and 2 (the tail). -/
theorem test_witness_UnpackOutput :
    (loaded bench ([1#8, 2#8, 3#8, 4#8, 5#8].map byteElem)).HasInput ([1#8, 2#8, 3#8, 4#8, 5#8].map byteElem) ∧
      ¬ framingBad bench 5 ∧ unpackCount .fault 5 ≤ bench.outDepth :=
  ⟨bench_hasInput _ (by decide), by rintro ⟨-, -, h⟩; omega, by decide⟩
theorem test_witness_UnpackOverflow :
    ∀ d ∈ [1, 2], Params.wf ⟨64, d, .fault⟩ = true ∧
      (loaded ⟨64, d, .fault⟩ ([1#8, 2#8, 3#8, 4#8, 5#8].map byteElem)).HasInput
        ([1#8, 2#8, 3#8, 4#8, 5#8].map byteElem) ∧
      ¬ framingBad ⟨64, d, .fault⟩ 5 ∧ d < unpackCount .fault 5 := by
  intro d hd
  refine ⟨?_, loaded_hasInput (by simp) (by simp) _, by rintro ⟨-, -, h⟩; omega, ?_⟩ <;> revert d <;> decide

/-- PackOutput: three codes, a group and a tail; PackOverflow: OUT_DEPTH 2 (inside the group) and 4 (the tail). -/
theorem test_witness_PackOutput :
    (loaded bench ([1#12, 2#12, 3#12].map codeElem)).HasInput ([1#12, 2#12, 3#12].map codeElem) ∧
      packCount 3 ≤ bench.outDepth :=
  ⟨bench_hasInput _ (by decide), by decide⟩
theorem test_witness_PackOverflow :
    ∀ d ∈ [2, 4], Params.wf ⟨64, d, .fault⟩ = true ∧
      (loaded ⟨64, d, .fault⟩ ([1#12, 2#12, 3#12].map codeElem)).HasInput ([1#12, 2#12, 3#12].map codeElem) ∧
      d < packCount 3 := by
  intro d hd
  refine ⟨?_, loaded_hasInput (by simp) (by simp) _, ?_⟩ <;> revert d <;> decide

theorem test_witness_DecodeOfNothing : (loaded bench []).latchedLen = 0#32 := by decide

/-- "A", "B", "AB", "ABA": the patterns of V-D3 and of V-E5. -/
def abPatterns : List Pattern := [[0x41#8], [0x42#8], [0x41#8, 0x42#8], [0x41#8, 0x42#8, 0x41#8]]

theorem codesValid_of_check (ks : List Nat)
    (h : ∀ i (h : i < ks.length), (i = 0 → ks[i] < 256) ∧ (i ≠ 0 → ks[i] ≤ 256 + (i - 1) % 3840)) :
    CodesValid ks := by
  intro i hi
  unfold codeAllowed
  split
  · next h0 => exact (h i hi).1 h0
  · next h0 => exact (h i hi).2 h0

theorem abCodes_valid : CodesValid [65, 66, 256, 258] := codesValid_of_check _ (by decide)

theorem abCodes_decode : DecodesTo [65, 66, 256, 258] abPatterns := ⟨rfl, by decide⟩

/-- DecodeOutput, DecodePackedOutput, DecodeOverflow: V-D3. -/
theorem test_witness_DecodeOutput :
    (loaded bench [65#16, 66#16, 256#16, 258#16]).HasInput [65#16, 66#16, 256#16, 258#16] ∧
      CodesValid ([65#16, 66#16, 256#16, 258#16].map (·.toNat)) ∧
      DecodesTo ([65#16, 66#16, 256#16, 258#16].map (·.toNat)) abPatterns ∧
      abPatterns.flatten.length ≤ bench.outDepth :=
  ⟨bench_hasInput _ (by decide), abCodes_valid, abCodes_decode, by decide⟩

/-- DecodeInvalidCode: the first code 256 (V-D8), and code 257 at index 1 (V-D10). -/
theorem test_witness_DecodeInvalidCode_first :
    (loaded bench [256#16]).HasInput [256#16] ∧ ¬ codeAllowed 0 256 ∧ CodesValid (([256#16].take 0).map (·.toNat)) ∧
      DecodesTo (([256#16].take 0).map (·.toNat)) [] :=
  ⟨bench_hasInput _ (by decide), by simp [codeAllowed], by simp [CodesValid], by simp [DecodesTo]⟩
theorem test_witness_DecodeInvalidCode_later :
    (loaded bench [65#16, 257#16]).HasInput [65#16, 257#16] ∧ ¬ codeAllowed 1 257 ∧
      CodesValid (([65#16, 257#16].take 1).map (·.toNat)) ∧
      DecodesTo (([65#16, 257#16].take 1).map (·.toNat)) [[0x41#8]] ∧
      ([[0x41#8]] : List Pattern).flatten.length ≤ bench.outDepth :=
  ⟨bench_hasInput _ (by decide), by simp [codeAllowed], codesValid_of_check _ (by decide), ⟨rfl, by decide⟩, by decide⟩

/-- DecodeOverflow: the patterns of [65, 66, 256] fill OUT_DEPTH = 4; that of 258 does not fit. -/
theorem test_witness_DecodeOverflow :
    Params.wf ⟨64, 4, .fault⟩ = true ∧
      (loaded ⟨64, 4, .fault⟩ [65#16, 66#16, 256#16, 258#16]).HasInput [65#16, 66#16, 256#16, 258#16] ∧
      CodesValid (([65#16, 66#16, 256#16, 258#16].take 4).map (·.toNat)) ∧
      DecodesTo (([65#16, 66#16, 256#16, 258#16].take 4).map (·.toNat)) abPatterns ∧
      (abPatterns.take 3).flatten.length ≤ 4 ∧ 4 < abPatterns.flatten.length :=
  ⟨by decide, loaded_hasInput (by decide) (by decide) _, abCodes_valid, abCodes_decode, by decide, by decide⟩

/-- DecodeInvalidCode on DECODE_PACKED: the first code (V-K6, q = [4095]); and code 1 of q = [16, 515] on a block with
OUT_DEPTH = 1, where q itself would not fit OUT_BUF. -/
theorem test_witness_DecodeInvalidCode_packed_first :
    (loaded bench ([0x0F#8, 0xFF#8].map byteElem)).HasInput ([0x0F#8, 0xFF#8].map byteElem) ∧
      ¬ framingBad bench 2 ∧ [4095#12] = unpackCodes .fault [0x0F#8, 0xFF#8] ∧ ¬ codeAllowed 0 (4095#12).toNat ∧
      CodesValid (([4095#12].take 0).map (·.toNat)) ∧ DecodesTo (([4095#12].take 0).map (·.toNat)) [] :=
  ⟨bench_hasInput _ (by decide), by rintro ⟨-, h, -⟩; omega, by decide, by simp [codeAllowed], by simp [CodesValid],
    by simp [DecodesTo]⟩
theorem test_witness_DecodeInvalidCode_packed_later :
    Params.wf ⟨64, 1, .fault⟩ = true ∧
      (loaded ⟨64, 1, .fault⟩ ([1#8, 2#8, 3#8].map byteElem)).HasInput ([1#8, 2#8, 3#8].map byteElem) ∧
      ¬ framingBad ⟨64, 1, .fault⟩ 3 ∧ [16#12, 515#12] = unpackCodes .fault [1#8, 2#8, 3#8] ∧
      ¬ codeAllowed 1 (515#12).toNat ∧ CodesValid (([16#12, 515#12].take 1).map (·.toNat)) ∧
      DecodesTo (([16#12, 515#12].take 1).map (·.toNat)) [[16#8]] ∧ ([[16#8]] : List Pattern).flatten.length ≤ 1 :=
  ⟨by decide, loaded_hasInput (by decide) (by decide) _, by rintro ⟨-, h, -⟩; omega, by decide,
    by simp [codeAllowed], codesValid_of_check _ (by decide), ⟨rfl, by decide⟩, by decide⟩

/-- V-P6: the packed form of the codes of "ABABABA". -/
def abPacked : List Byte := [0x04#8, 0x10#8, 0x42#8, 0x10#8, 0x01#8, 0x02#8]

/-- DecodePackedOutput: V-K5. -/
theorem test_witness_DecodePackedOutput :
    (loaded bench (abPacked.map byteElem)).HasInput (abPacked.map byteElem) ∧ ¬ framingBad bench abPacked.length ∧
      CodesValid ((unpackCodes .fault abPacked).map (·.toNat)) ∧
      DecodesTo ((unpackCodes .fault abPacked).map (·.toNat)) abPatterns :=
  ⟨bench_hasInput _ (by decide), by rintro ⟨-, -, h⟩; exact absurd h (by decide),
    (show (unpackCodes .fault abPacked).map (·.toNat) = [65, 66, 256, 258] by decide) ▸ abCodes_valid,
    (show (unpackCodes .fault abPacked).map (·.toNat) = [65, 66, 256, 258] by decide) ▸ abCodes_decode⟩

/-- DecodeOverflow on DECODE_PACKED: the bytes of V-K5 with OUT_DEPTH = 1, fewer than its four codes; the pattern of
code 1 does not fit. -/
theorem test_witness_DecodeOverflow_packed :
    Params.wf ⟨64, 1, .fault⟩ = true ∧
      (loaded ⟨64, 1, .fault⟩ (abPacked.map byteElem)).HasInput (abPacked.map byteElem) ∧
      ¬ framingBad ⟨64, 1, .fault⟩ abPacked.length ∧ [65#12, 66#12, 256#12, 258#12] = unpackCodes .fault abPacked ∧
      CodesValid (([65#12, 66#12, 256#12, 258#12].take 2).map (·.toNat)) ∧
      DecodesTo (([65#12, 66#12, 256#12, 258#12].take 2).map (·.toNat)) (abPatterns.take 2) ∧
      ((abPatterns.take 2).take 1).flatten.length ≤ 1 ∧ 1 < (abPatterns.take 2).flatten.length :=
  ⟨by decide, loaded_hasInput (by decide) (by decide) _, by rintro ⟨-, -, h⟩; exact absurd h (by decide), by decide,
    codesValid_of_check _ (by decide), ⟨rfl, by decide⟩, by decide, by decide⟩

/-- The codes 65, 66, 256, 258 as elements. -/
def abElems : List Elem := [65#16, 66#16, 256#16, 258#16]

/-- DecodePackedIsUnpackThenDecode: UNPACK of V-U15, whose codes the second block holds. -/
theorem test_witness_DecodePackedIsUnpackThenDecode :
    (loaded bench (abPacked.map byteElem)).HasInput (abPacked.map byteElem) ∧
      (∃ u, exec .unpack (loaded bench (abPacked.map byteElem)) = .next u ∧ u.Succeeded abElems) ∧
      (loaded bench abElems).HasInput abElems := by
  refine ⟨bench_hasInput _ (by decide), ?_, bench_hasInput _ (by decide)⟩
  obtain ⟨u, h1, h2, -⟩ := exec_of_success (i := .unpack) (s := loaded bench (abPacked.map byteElem))
    (out := abElems) (d := .fresh) (by decide) (bench_hasInput _ (by decide)) (by decide)
  exact ⟨u, h1, h2⟩

/-- "ABABABA". -/
def abText : List Byte := [0x41#8, 0x42#8, 0x41#8, 0x42#8, 0x41#8, 0x42#8, 0x41#8]

/-- EncodeOutput: the greedy parse of "ABABABA" (V-E5). -/
theorem abText_parse : GreedyParse abText abPatterns [65, 66, 256, 258] := by
  refine ⟨by decide, by decide, rfl, ?_, ?_⟩
  · intro i h
    match i, h with
    | 0, _ => exact .inl ⟨0x41#8, rfl, rfl⟩
    | 1, _ => exact .inl ⟨0x42#8, rfl, rfl⟩
    | 2, _ => exact .inr ⟨0, by decide, by decide, by decide, rfl⟩
    | 3, _ => exact .inr ⟨2, by decide, by decide, by decide, rfl⟩
  · intro i hi j _ hj
    have hi3 : i + 1 < 4 := hi
    have hi4 : i < 3 := by omega
    interval_cases i <;> interval_cases j <;> decide

theorem test_witness_EncodeOutput :
    (loaded bench (abText.map byteElem)).HasInput (abText.map byteElem) ∧
      GreedyParse abText abPatterns [65, 66, 256, 258] ∧ [65, 66, 256, 258].length ≤ bench.outDepth ∧
      abText.length ≤ bench.outDepth :=
  ⟨bench_hasInput _ (by decide), abText_parse, by decide, by decide⟩

/-- EncodeOverflow: the same text on a block with OUT_DEPTH = 3. -/
theorem test_witness_EncodeOverflow :
    Params.wf ⟨64, 3, .fault⟩ = true ∧
      (loaded ⟨64, 3, .fault⟩ (abText.map byteElem)).HasInput (abText.map byteElem) ∧
      GreedyParse abText abPatterns [65, 66, 256, 258] ∧ 3 < [65, 66, 256, 258].length :=
  ⟨by decide, loaded_hasInput (by decide) (by decide) _, abText_parse, by decide⟩

/-- EncodeOutputBounds, EncodeDecodeRoundTrip: a successful ENCODE of "ABABABA", a successful PACK of its codes, and
blocks that hold the results. -/
theorem test_witness_EncodeDecodeRoundTrip :
    (∃ t, exec .encode (loaded bench (abText.map byteElem)) = .next t ∧ t.Succeeded abElems) ∧
      (loaded bench abElems).HasInput abElems ∧
      (∃ u, exec .pack (loaded bench abElems) = .next u ∧ u.Succeeded (abPacked.map byteElem)) ∧
      (loaded bench (abPacked.map byteElem)).HasInput (abPacked.map byteElem) ∧ abText.length ≤ bench.outDepth := by
  refine ⟨?_, bench_hasInput _ (by decide), ?_, bench_hasInput _ (by decide), by decide⟩
  · obtain ⟨t, h1, h2, -⟩ := exec_of_success (i := .encode) (by decide) (bench_hasInput (abText.map byteElem) (by decide))
      (encode_run.trans (encodeTrace_finish abText_parse (by decide)))
    exact ⟨t, h1, h2⟩
  · obtain ⟨u, h1, h2, -⟩ := exec_of_success (i := .pack) (s := loaded bench abElems) (out := abPacked.map byteElem)
      (d := .fresh) (by decide) (bench_hasInput _ (by decide)) (by decide)
    exact ⟨u, h1, h2⟩

end Sys2Proof.Tests
end

section
/-! PROOFS. Family 10_state.md: the rules of a transaction at a register, the step lemmas of the parameters and of the
invariant, and the statements about the registers and the results. -/

namespace Sys2Proof.Machine

/-! ### One transaction at a known target (20_memory.md R39 to R42) -/

@[simp] theorem hostRead_regAddr (r : Reg) (s : State) : hostRead (regAddr r) s = s.readReg r := by
  simp [hostRead]

@[simp] theorem hostWrite_regAddr (r : Reg) (w : Word) (s : State) : hostWrite (regAddr r) w s = s.writeReg r w := by
  simp [hostWrite]

/-- A register that is no result register reads exactly in any state (R40, R51). -/
theorem State.readReg_of_not_result (s : State) {r : Reg} (hr : isResultReg r = false) :
    s.readReg r = s.respond (s.regWord r) := by
  unfold State.readReg
  cases s.engState <;> simp [hr]

@[simp] theorem State.regWord_setPending (s : State) (rest : List Event) (r : Reg) :
    (s.setPending rest).regWord r = s.regWord r := by
  cases r <;> rfl

theorem step_read_reg {s : State} {r : Reg} {rest : List Event} (hr : isResultReg r = false)
    (h : s.pending = .host (.read (regAddr r)) :: rest) :
    step s = .next { s with pending := rest, response := some (s.regWord r) } := by
  rw [step_host h, transact, hostRead_regAddr, State.readReg_of_not_result _ hr, State.regWord_setPending]
  rfl

theorem step_write_reg {s : State} {r : Reg} {w : Word} {rest : List Event}
    (h : s.pending = .host (.write (regAddr r) w) :: rest) :
    step s = .next ((s.setPending rest).writeReg r w).respondNothing := by
  rw [step_host h, transact, hostWrite_regAddr]

/-- A write that its target ignores only uses up the input. -/
theorem step_write_ignored {s : State} {a w : Word} {rest : List Event}
    (h : s.pending = .host (.write a w) :: rest) (ha : hostWrite a w (s.setPending rest) = s.setPending rest) :
    step s = .next { s with pending := rest, response := none } := by
  rw [step_host h, transact, ha]
  rfl

/-- The registers that ignore host writes (10_state.md R9 to R12, R17 to R20). -/
def isReadOnlyReg : Reg → Bool
  | .ctrl | .cmd | .status | .inLen => false
  | .id | .param | .inCap | .outCap | .outLen | .errIndex | .dictSize | .dictResets => true

theorem State.writeReg_of_readOnly (s : State) {r : Reg} (hr : isReadOnlyReg r = true) (w : Word) :
    s.writeReg r w = s := by
  cases r <;> simp [isReadOnlyReg] at hr <;> rfl

theorem step_write_readOnlyReg {s : State} {r : Reg} {w : Word} {rest : List Event} (hr : isReadOnlyReg r = true)
    (h : s.pending = .host (.write (regAddr r) w) :: rest) :
    step s = .next { s with pending := rest, response := none } :=
  step_write_ignored h ((hostWrite_regAddr r w _).trans (State.writeReg_of_readOnly _ hr w))

theorem hostRead_hole {s : State} {a : Word} (h : target s.params a = .hole) : hostRead a s = s.respond 0#32 := by
  simp [hostRead, h]

theorem hostWrite_hole {s : State} {a w : Word} (h : target s.params a = .hole) : hostWrite a w s = s := by
  simp [hostWrite, h]

theorem hostWrite_outAddr {s : State} {i : Nat} {w : Word} (hp : s.params.wf = true) (hi : i < s.params.outDepth) :
    hostWrite (outAddr i) w s = s := by
  simp [hostWrite, target_outAddr hp hi]

/-! ### What a step and a command keep -/

theorem exec_frame {i : Instr} {s t : State} (h : exec i s = .next t) : s.CommandFrame t := by
  obtain ⟨b, -, rfl⟩ := exec_bounded h
  exact State.complete_frame s _ b

theorem exec_params {i : Instr} {s t : State} (h : exec i s = .next t) : t.params = s.params :=
  (exec_frame h).1

theorem hostWrite_params (a w : Word) (s : State) : (hostWrite a w s).params = s.params := by
  rcases hostWrite_cases a w s with ⟨-, h⟩ | ⟨-, h⟩ | ⟨-, h⟩ | ⟨-, h⟩ | ⟨i, -, -, h⟩ | ⟨-, h⟩ <;> rw [h]
  · unfold State.writeCtrl
    split <;> simp
  · rcases s.issue_cases w with ⟨-, h⟩ | ⟨-, -, h⟩ | ⟨-, i, -, h⟩ <;> simp [h]
  · simp
  · unfold State.writeInLen
    split <;> rfl
  · unfold State.writeInElem
    split <;> rfl

theorem transact_params (x : Transaction) (s : State) : (transact x s).params = s.params := by
  cases x with
  | read a =>
    obtain ⟨v, d, h, -, -⟩ := hostRead_eq a s
    simp [transact, h]
  | write a w => simp [transact, hostWrite_params]

/-- No step changes the parameters of the block (R5). -/
theorem step_params {s t : State} (h : step s = .next t) : t.params = s.params := by
  rcases step_next h with ⟨s', hs', h⟩ | ⟨x, rest, -, rfl⟩ | ⟨rest, -, rfl⟩
  · have hp : s'.params = s.params := by
      rcases hs' with ⟨rfl, -⟩ | ⟨rest, rfl, -⟩ <;> rfl
    rcases h with ⟨-, rfl⟩ | ⟨-, i, -, h⟩
    · exact hp
    · exact (exec_params h).trans hp
  · exact transact_params x (s.setPending rest)
  · rfl

/-! ### The invariant, operation by operation (10_state.md R15, R24, R25, R32) -/

/-- The reset state of a block that can be built is in the invariant. -/
theorem State.inv_resetFor {p : Params} (hp : p.wf = true) : (State.resetFor p).Inv where
  params_wf := hp
  inBuf_wf := List.Pairwise.nil
  outBuf_wf := List.Pairwise.nil
  inBuf_lt := by simp [State.resetFor]
  outBuf_lt := by simp [State.resetFor]
  busy_op := by simp [State.resetFor]
  busy_done := by simp [State.resetFor]
  err_done := by simp [State.resetFor]
  outLen_le := Nat.zero_le _
  errIndex_le := Nat.zero_le _
  dictSize_ge := by simp [State.resetFor]
  dictSize_le := by simp [State.resetFor]
  dictResets_lt := by simp [State.resetFor]
  inFill_lt := by simp [State.resetFor]
  outFill_lt := by simp [State.resetFor]

/-- The opcode field of a word that names a command names it too (R54). -/
theorem decodeOp_of_decodeWord {w : Word} {i : Instr} (h : decodeWord w = .ok i) :
    decodeOp (w.extractLsb' 0 4) = .ok i := by
  unfold decodeWord at h
  split at h
  · exact h
  · cases h

namespace State.Inv

variable {s : State}

/-- The invariant does not speak of these fields, and bounds the draw counter from below only. -/
theorem free_fields (h : s.Inv) (q o : Bool) (l : Word) (r : Option Word) (ps : List Event) {d : Nat}
    (hd : s.draws ≤ d) :
    State.Inv { s with irqEn := q, ovr := o, inLen := l, response := r, pending := ps, draws := d } :=
  { h with
    inFill_lt := lt_of_lt_of_le h.inFill_lt hd
    outFill_lt := lt_of_lt_of_le h.outFill_lt hd }

theorem setPending (h : s.Inv) (rest : List Event) : (s.setPending rest).Inv :=
  h.free_fields _ _ _ _ rest le_rfl

theorem respondNothing (h : s.Inv) : s.respondNothing.Inv := h.free_fields _ _ _ none _ le_rfl

theorem hostRead (h : s.Inv) (a : Word) : (hostRead a s).Inv := by
  obtain ⟨v, d, heq, hd, -⟩ := hostRead_eq a s
  rw [heq]
  exact h.free_fields _ _ _ (some v) _ hd

theorem forgetOutput (h : s.Inv) : s.forgetOutput.Inv :=
  { h with
    outBuf_wf := List.Pairwise.nil
    outBuf_lt := by simp
    inFill_lt := Nat.lt_succ_of_lt h.inFill_lt
    outFill_lt := Nat.lt_succ_self _ }

theorem resetRegs (h : s.Inv) : s.resetRegs.Inv :=
  { h with
    busy_op := by simp
    busy_done := by simp
    err_done := by simp
    outLen_le := Nat.zero_le _
    errIndex_le := Nat.zero_le _
    dictSize_ge := by simp
    dictSize_le := by simp
    dictResets_lt := by simp }

/-- The registers are those of a reset, and both buffers forget under the fill drawn now (R117). -/
theorem hardReset (h : s.Inv) : s.hardReset.Inv :=
  { h.resetRegs with
    inBuf_wf := List.Pairwise.nil
    outBuf_wf := List.Pairwise.nil
    inBuf_lt := by simp
    outBuf_lt := by simp
    inFill_lt := Nat.lt_succ_self _
    outFill_lt := Nat.lt_succ_self _ }

theorem softReset (h : s.Inv) (q : Bool) : (s.softReset q).Inv := by
  unfold State.softReset
  cases s.engState with
  | idle => exact h.resetRegs.free_fields q _ _ _ _ le_rfl
  | busy => exact h.resetRegs.forgetOutput.free_fields q _ _ _ _ le_rfl

theorem writeCtrl (h : s.Inv) (w : Word) : (s.writeCtrl w).Inv := by
  unfold State.writeCtrl
  split
  · exact h.softReset _
  · exact h.free_fields (w.getLsbD 0) _ _ _ _ le_rfl

/-- DONE and ERR are cleared together, so an error that stays keeps its DONE (R15). -/
theorem clearStatus (h : s.Inv) (w : Word) : (s.clearStatus w).Inv :=
  { h with
    busy_done := fun hb => by simp [h.busy_done hb]
    err_done := fun he => by
      obtain ⟨hw, he⟩ : w[1] = false ∧ s.err ≠ .none := by simpa using he
      simp [hw, h.err_done he] }

theorem writeInLen (h : s.Inv) (w : Word) : (s.writeInLen w).Inv := by
  unfold State.writeInLen
  split
  · exact h.free_fields _ _ w _ _ le_rfl
  · exact h

theorem writeInElem (h : s.Inv) {i : Nat} (hi : i < s.params.inDepth) (w : Word) : (s.writeInElem i w).Inv := by
  unfold State.writeInElem
  split
  · exact { h with
      inBuf_wf := Memory.wf_write h.inBuf_wf i _
      inBuf_lt := Memory.lt_write h.inBuf_lt hi _ }
  · exact h

theorem refuseIllegal (h : s.Inv) (hs : s.engState = .idle) : s.refuseIllegal.Inv :=
  { h with
    busy_done := by simp [hs]
    err_done := fun _ => rfl
    outLen_le := Nat.zero_le _
    errIndex_le := Nat.zero_le _ }

/-- The opcode latched at acceptance is the one that the word was decoded from (R98). -/
theorem accept (h : s.Inv) {w : Word} {i : Instr} (hw : decodeWord w = .ok i) : (s.accept w).Inv :=
  { h with
    busy_op := fun _ => ⟨i, decodeOp_of_decodeWord hw⟩
    busy_done := fun _ => rfl
    err_done := fun he => absurd rfl he }

theorem issue (h : s.Inv) (w : Word) : (s.issue w).Inv := by
  rcases s.issue_cases w with ⟨-, heq⟩ | ⟨hs, -, heq⟩ | ⟨-, i, hw, heq⟩ <;> rw [heq]
  · exact h.free_fields _ true _ _ _ le_rfl
  · exact h.refuseIllegal hs
  · exact h.accept hw

theorem hostWrite (h : s.Inv) (a w : Word) : (hostWrite a w s).Inv := by
  rcases hostWrite_cases a w s with ⟨-, heq⟩ | ⟨-, heq⟩ | ⟨-, heq⟩ | ⟨-, heq⟩ | ⟨i, -, hi, heq⟩ | ⟨-, heq⟩ <;> rw [heq]
  · exact h.writeCtrl w
  · exact h.issue w
  · exact h.clearStatus w
  · exact h.writeInLen w
  · exact h.writeInElem hi w
  · exact h

theorem transact (h : s.Inv) (x : Transaction) : (transact x s).Inv := by
  cases x with
  | read a => exact h.hostRead a
  | write a w => exact (h.hostWrite a w).respondNothing

/-- Readbacks of at most IN_DEPTH registrations fit their registers (R24, R32). -/
theorem writeDict (h : s.Inv) {d : Option DictCount} (hd : ∀ c ∈ d, c.Bounded s.params.inDepth) :
    (s.writeDict d).Inv := by
  cases d with
  | none => exact h
  | some c =>
    obtain ⟨h1, h2, h3⟩ := hd c rfl
    have hp := params_depth h.params_wf
    have hs : (s.writeDict (some c)).dictSize.toNat = c.size := by simp; omega
    have hr : (s.writeDict (some c)).dictResets.toNat = c.resets := by simp; omega
    exact { h with
      dictSize_ge := by rw [hs]; exact h1
      dictSize_le := by rw [hs]; exact h2
      dictResets_lt := by rw [hr]; omega }

theorem completeOk (h : s.Inv) {out : List Elem} {d : Option DictCount}
    (hd : ∀ c ∈ d, c.Bounded s.params.inDepth) (ho : out.length ≤ s.params.outDepth) : (s.completeOk out d).Inv :=
  { h.writeDict hd with
    outBuf_wf := Memory.wf_writeFrom out h.outBuf_wf 0
    outBuf_lt := by simpa using Memory.lt_writeFrom out h.outBuf_lt (by omega)
    busy_op := by simp
    busy_done := by simp
    err_done := fun _ => rfl
    outLen_le := by simpa using le_trans (Nat.mod_le _ _) ho
    errIndex_le := Nat.zero_le _ }

theorem completeError (h : s.Inv) {e : CommandError} {d : Option DictCount}
    (hd : ∀ c ∈ d, c.Bounded s.params.inDepth) (he : e.cursor ≤ s.params.inDepth) : (s.completeError e d).Inv :=
  { (h.writeDict hd).forgetOutput with
    busy_op := by simp
    busy_done := by simp
    err_done := fun _ => rfl
    outLen_le := Nat.zero_le _
    errIndex_le := by simpa using le_trans (Nat.mod_le _ _) he }

/-- A completion with a bounded end keeps the invariant (R103). -/
theorem complete (h : s.Inv) (c : Command) {b : BodyEnd} (hb : b.Bounded s.params.inDepth s.params.outDepth) :
    (s.complete c b).Inv := by
  have hd : ∀ k ∈ c.readback b.dict, k.Bounded s.params.inDepth := by
    intro k hk
    unfold Command.readback at hk
    split at hk
    · cases hk
      exact hb.1
    · cases hk
  cases b with
  | success out d => exact h.completeOk hd hb.2
  | error e d => exact h.completeError hd hb.2.2

theorem exec (h : s.Inv) {i : Instr} {t : State} (he : exec i s = .next t) : t.Inv := by
  obtain ⟨b, hb, rfl⟩ := exec_bounded he
  exact h.complete _ hb

/-- Every kind of step keeps the invariant. -/
theorem step (h : s.Inv) {t : State} (hs : step s = .next t) : t.Inv := by
  rcases step_next hs with ⟨s', hs', hcase⟩ | ⟨x, rest, -, rfl⟩ | ⟨rest, -, rfl⟩
  · have h' : s'.Inv := by
      rcases hs' with ⟨rfl, -⟩ | ⟨rest, rfl, -⟩
      · exact h
      · exact h.setPending rest
    rcases hcase with ⟨-, rfl⟩ | ⟨-, i, -, he⟩
    · exact h'
    · exact h'.exec he
  · exact (h.setPending rest).transact x
  · exact h.hardReset.setPending rest

end State.Inv

/-- Settles O30: step by step through `State.Inv.step`, one lemma per operation. -/
theorem stepKeepsInvariant : Obligations.StepKeepsInvariant := by
  unfold Obligations.StepKeepsInvariant
  intro s t h hs
  exact h.step hs

theorem depthOk_iff {d : Nat} : depthOk d = true ↔ 1 ≤ d ∧ d ≤ 16777216 := decide_eq_true_iff

theorem Config.params_wf : Config.params.wf = true := by
  have h1 := Config.inDepthLessOne.isLt
  have h2 := Config.outDepthLessOne.isLt
  simp only [Config.params, Params.wf, Bool.and_eq_true, depthOk_iff]
  omega

/-- Settles O29: every parameter of R5 is well formed, and so is the reset state for it. -/
theorem resetMeetsInvariant : Obligations.ResetMeetsInvariant := by
  unfold Obligations.ResetMeetsInvariant
  exact State.inv_resetFor Config.params_wf

/-! ### The registers (10_state.md R9 to R21) -/

theorem paramWord_toNat (p : Params) :
    (paramWord p).toNat = 12 + 16 * (match p.residue1 with | .fault => 0 | .overlap => 1 | .drop => 2) := by
  unfold paramWord
  cases p.residue1 <;> rfl

/-- Settles O16: the four registers are read-only and read functions of the parameters, which `step_params` keeps. -/
theorem identificationRegistersAreConstant : Obligations.IdentificationRegistersAreConstant := by
  unfold Obligations.IdentificationRegistersAreConstant
  intro s r rest hr
  have hkind : isResultReg r = false ∧ isReadOnlyReg r = true := by
    rcases hr with rfl | rfl | rfl | rfl <;> exact ⟨rfl, rfl⟩
  refine ⟨step_read_reg hkind.1, fun w => step_write_readOnlyReg hkind.2, rfl, paramWord_toNat s.params,
    fun hp => ?_, fun t => step_params⟩
  have hd := params_depth hp
  simp only [State.regWord, BitVec.toNat_ofNat]
  omega

/-- Settles O17: each of the four ranges is a hole of the address map. -/
theorem holesReadZeroAndIgnoreWrites : Obligations.HolesReadZeroAndIgnoreWrites := by
  unfold Obligations.HolesReadZeroAndIgnoreWrites
  intro s a rest hp ha
  have ht : target (s.setPending rest).params a = .hole := target_hole hp ha
  refine ⟨fun h => ?_, fun w h => step_write_ignored h (hostWrite_hole ht)⟩
  rw [step_host h, transact, hostRead_hole ht]
  rfl

/-- Settles O18: the result registers and OUT_BUF are read-only targets, and CMD has no value to read. -/
theorem readOnlyTargetsIgnoreWrites : Obligations.ReadOnlyTargetsIgnoreWrites := by
  unfold Obligations.ReadOnlyTargetsIgnoreWrites
  refine ⟨fun s a w rest ha h => ?_, fun s rest h => step_read_reg rfl h⟩
  rcases ha with ⟨r, hr, rfl⟩ | ⟨hp, i, hi, rfl⟩
  · have hro : ∀ r ∈ [Reg.outLen, .errIndex, .dictSize, .dictResets], isReadOnlyReg r = true := by decide
    exact step_write_readOnlyReg (hro r hr) h
  · exact step_write_ignored h (hostWrite_outAddr hp hi)

theorem ErrCode.bits_toNat (e : ErrCode) :
    e.bits.toNat =
      (match e with
        | .none => 0
        | .invalidCode => 1
        | .illegalCommand => 2
        | .length => 3
        | .framing => 4
        | .elementRange => 5
        | .outputOverflow => 6) := by
  cases e <;> rfl

/-- STATUS bit by bit (R15). -/
theorem State.statusWord_getLsbD (s : State) (k : Nat) :
    s.statusWord.getLsbD k =
      if k = 0 then s.busy else if k = 1 then s.done else if k < 4 then false
      else if k < 8 then s.err.bits.getLsbD (k - 4) else if k = 8 then s.ovr else false := by
  simp only [State.statusWord, BitVec.getLsbD_append, BitVec.getLsbD_ofBool, BitVec.getLsbD_zero]
  grind

theorem State.statusWord_reserved_low (s : State) : s.statusWord.extractLsb' 2 2 = 0#2 := by
  refine BitVec.eq_of_getLsbD_eq fun i hi => ?_
  rw [BitVec.getLsbD_extractLsb', State.statusWord_getLsbD, BitVec.getLsbD_zero]
  grind

theorem State.statusWord_err (s : State) : s.statusWord.extractLsb' 4 4 = s.err.bits := by
  refine BitVec.eq_of_getLsbD_eq fun i hi => ?_
  rw [BitVec.getLsbD_extractLsb', State.statusWord_getLsbD]
  grind

theorem State.statusWord_reserved_high (s : State) : s.statusWord.extractLsb' 9 23 = 0#23 := by
  refine BitVec.eq_of_getLsbD_eq fun i hi => ?_
  rw [BitVec.getLsbD_extractLsb', State.statusWord_getLsbD, BitVec.getLsbD_zero]
  grind

theorem State.busy_iff (s : State) : s.busy = true ↔ s.engState = .busy := by simp [State.busy]

theorem State.clearStatus_eq (s : State) (w : Word) :
    s.clearStatus w = { s with
      done := if w.getLsbD 1 then false else s.done
      err := if w.getLsbD 1 then .none else s.err
      ovr := if w.getLsbD 8 then false else s.ovr } := by
  have hclear : ∀ a b : Bool, (a && !b) = if b then false else a := by decide
  simp only [State.clearStatus, hclear]

/-- Settles O22: the bits come from `statusWord_getLsbD`, the write is `clearStatus`. -/
theorem statusBits : Obligations.StatusBits := by
  unfold Obligations.StatusBits
  intro s w rest
  constructor
  · intro h
    refine ⟨s.statusWord, step_read_reg rfl h, ?_, s.statusWord_getLsbD 1, s.statusWord_reserved_low, ?_,
      s.statusWord_getLsbD 8, s.statusWord_reserved_high⟩
    · rw [State.statusWord_getLsbD, if_pos rfl, State.busy_iff]
    · rw [State.statusWord_err]
      exact s.err.bits_toNat
  · intro h
    rw [step_write_reg h, State.writeReg, State.clearStatus_eq]
    rfl

theorem State.ctrlWord_eq (s : State) : s.ctrlWord = if s.irqEn then 1#32 else 0#32 := by
  unfold State.ctrlWord
  cases s.irqEn <;> rfl

theorem State.writeCtrl_of_set {s : State} {w : Word} (hw : w.getLsbD 1 = true) :
    s.writeCtrl w = s.softReset (w.getLsbD 0) := if_pos hw

theorem State.writeCtrl_of_clear {s : State} {w : Word} (hw : w.getLsbD 1 = false) :
    s.writeCtrl w = { s with irqEn := w.getLsbD 0 } := if_neg (ne_true_of_eq_false hw)

/-- Settles O23: bit [1] tells a plain write from a soft reset. -/
theorem ctrlRegister : Obligations.CtrlRegister := by
  unfold Obligations.CtrlRegister
  intro s w rest
  refine ⟨fun h => ?_, fun h hw => ?_, fun h hw => ⟨_, step_write_reg h, ?_⟩⟩
  · rw [step_read_reg rfl h, ← State.ctrlWord_eq]
    rfl
  · rw [step_write_reg h, State.writeReg, State.writeCtrl_of_clear hw]
    rfl
  · rw [State.writeReg, State.writeCtrl_of_set hw]
    simp

theorem State.writeInLen_idle {s : State} (h : s.engState = .idle) (w : Word) :
    s.writeInLen w = { s with inLen := w } := by
  simp [State.writeInLen, h]

theorem State.writeInLen_busy {s : State} (h : s.engState = .busy) (w : Word) : s.writeInLen w = s := by
  simp [State.writeInLen, h]

theorem State.issue_encode {s : State} (h : s.engState = .idle) (i : Instr) :
    s.issue (encode i) = s.accept (encode i) := by
  simp [State.issue, h]

/-- Settles O24: the lock is `writeInLen`, the latch is `accept`, and a command keeps IN_LEN by its frame. -/
theorem inLenRegister : Obligations.InLenRegister := by
  unfold Obligations.InLenRegister
  intro s w rest
  refine ⟨fun h hs => ?_, fun h hs => ?_, fun h => step_read_reg rfl h, fun i h hs => ⟨_, step_write_reg h, ?_⟩,
    fun i t h => ?_⟩
  · rw [step_write_reg h, State.writeReg, State.writeInLen_idle (by simpa using hs)]
    rfl
  · rw [step_write_reg h, State.writeReg, State.writeInLen_busy (by simpa using hs)]
    rfl
  · rw [State.writeReg, State.issue_encode (by simpa using hs)]
    simp
  · obtain ⟨-, -, hlen, -⟩ := exec_frame h
    exact hlen

/-! ### The results of a command (10_state.md R26, R32) -/

/-- What a completion reports and offers is fixed by the end of the body, not by the state it writes to (R103). -/
theorem State.complete_results (s s' : State) (c : Command) (b : BodyEnd) :
    (s'.complete c b).err = (s.complete c b).err ∧ (s'.complete c b).errIndex = (s.complete c b).errIndex ∧
      (s'.complete c b).outLen = (s.complete c b).outLen ∧
      ∀ j, j < (s.complete c b).outLen.toNat → (s'.complete c b).outElem j = (s.complete c b).outElem j := by
  cases b with
  | success out d =>
    refine ⟨rfl, rfl, rfl, fun j hj => ?_⟩
    have hout : j < out.length := lt_of_lt_of_le hj (by simpa [State.complete] using Nat.mod_le _ _)
    simp only [State.complete, State.completeOk_outElem, dif_pos hout]
  | error e d => exact ⟨rfl, rfl, rfl, fun j hj => absurd hj (Nat.not_lt_zero j)⟩

/-- The readbacks a completion writes for a command with a dictionary (R81, R93). -/
theorem State.complete_dict (s : State) {c : Command} (hc : c.hasDict = true) (b : BodyEnd) :
    (s.complete c b).dictSize = BitVec.ofNat 32 b.dict.size ∧
      (s.complete c b).dictResets = BitVec.ofNat 32 b.dict.resets := by
  cases b <;> simp [State.complete, Command.readback, hc, BodyEnd.dict]

/-- Settles O40: both states run the command to the same end of its body. -/
theorem resultDependsOnlyOnInput : Obligations.ResultDependsOnlyOnInput := by
  unfold Obligations.ResultDependsOnlyOnInput
  intro i s s' t x _ hparams hx hx' ht
  obtain rfl : s.complete (commandOf i) ((commandOf i).run s.params x) = t := by
    simpa [exec_of_hasInput hx] using ht
  have ht' := exec_of_hasInput (i := i) hx'
  rw [hparams] at ht'
  obtain ⟨herr, hidx, hlen, helem⟩ :=
    State.complete_results s s' (commandOf i) ((commandOf i).run s.params x)
  refine ⟨_, ht', herr, hidx, hlen, helem, fun hu => ?_⟩
  have hc : (commandOf i).hasDict = true := (commandOf_hasDict i).trans hu
  obtain ⟨hsize, hresets⟩ := s.complete_dict hc ((commandOf i).run s.params x)
  obtain ⟨hsize', hresets'⟩ := s'.complete_dict hc ((commandOf i).run s.params x)
  exact ⟨hsize'.trans hsize.symm, hresets'.trans hresets.symm⟩

/-- DICT_SIZE after any command with a dictionary (R32). -/
theorem exec_dictSize_range {i : Instr} {s t : State} (hu : usesDict i = true) (h : exec i s = .next t) :
    256 ≤ t.dictSize.toNat ∧ t.dictSize.toNat ≤ 4096 := by
  obtain ⟨b, ⟨⟨hge, hle, -⟩, -⟩, rfl⟩ := exec_bounded h
  rw [(s.complete_dict ((commandOf_hasDict i).trans hu) b).1, BitVec.toNat_ofNat]
  omega

/-- Settles O55: both commands have a dictionary, whose size a completion's bound keeps in range. -/
theorem decodeDictSizeRange : Obligations.DecodeDictSizeRange := by
  unfold Obligations.DecodeDictSizeRange
  intro i s t hi h
  have hu : usesDict i = true := by rcases hi with rfl | rfl <;> rfl
  exact exec_dictSize_range hu h

end Sys2Proof.Machine
end

section
/-! PROOFS. Family 20_memory.md: the two rules of a host transaction at each kind of address, what a transaction and a
step keep while BUSY and while IDLE, and the statements about the address map, the buffers and the results. -/

namespace Sys2Proof.Machine

/-! ### A read and a write at a known target (20_memory.md R39 to R42, R51) -/

/-- A read that answers a word and does nothing else only uses up the input (R40). -/
theorem step_read_respond {s : State} {a v : Word} {rest : List Event} (h : s.pending = .host (.read a) :: rest)
    (ha : hostRead a (s.setPending rest) = (s.setPending rest).respond v) :
    step s = .next { s with pending := rest, response := some v } := by
  rw [step_host h, transact, ha]
  rfl

/-- A read answered by the free word `v` also takes that draw (R51). -/
theorem step_read_draw {s : State} {a v : Word} {rest : List Event} (h : s.pending = .host (.read a) :: rest)
    (ha : hostRead a (s.setPending rest) = ((s.setPending rest).respond v).draw) :
    step s = .next { s with pending := rest, response := some v, draws := s.draws + 1 } := by
  rw [step_host h, transact, ha]
  rfl

theorem State.readReg_of_idle {s : State} (hs : s.engState = .idle) (r : Reg) :
    s.readReg r = s.respond (s.regWord r) := by
  simp [State.readReg, hs]

theorem State.readReg_of_busy_result {s : State} (hs : s.engState = .busy) {r : Reg} (hr : isResultReg r = true) :
    s.readReg r = (s.respond (Config.freeBusyWord s.draws)).draw := by
  simp [State.readReg, hs, hr]

theorem State.readOutElem_of_idle {s : State} (hs : s.engState = .idle) (i : Nat) :
    s.readOutElem i = s.respond ((s.outElem i).setWidth 32) := by
  simp [State.readOutElem, hs]

theorem State.readOutElem_of_busy {s : State} (hs : s.engState = .busy) (i : Nat) :
    s.readOutElem i = (s.respond ((Config.freeBusyElem s.draws).setWidth 32)).draw := by
  simp [State.readOutElem, hs]

theorem State.writeInElem_of_idle {s : State} (hs : s.engState = .idle) (i : Nat) (w : Word) :
    s.writeInElem i w = { s with inBuf := s.inBuf.write i (w.extractLsb' 0 16) } := by
  simp [State.writeInElem, hs]

theorem State.writeInElem_of_busy {s : State} (hs : s.engState = .busy) (i : Nat) (w : Word) :
    s.writeInElem i w = s := by
  simp [State.writeInElem, hs]

section window

variable {s : State} {i : Nat} (hp : s.params.wf = true)

include hp

theorem hostRead_inAddr (hi : i < s.params.inDepth) :
    hostRead (inAddr i) s = s.respond ((s.inElem i).setWidth 32) := by
  simp [hostRead, target_inAddr hp hi]

theorem hostWrite_inAddr (hi : i < s.params.inDepth) (w : Word) :
    hostWrite (inAddr i) w s = s.writeInElem i w := by
  simp [hostWrite, target_inAddr hp hi]

theorem hostRead_outAddr (hi : i < s.params.outDepth) : hostRead (outAddr i) s = s.readOutElem i := by
  simp [hostRead, target_outAddr hp hi]

/-- A read of the IN_BUF window is exact in any state (R41, R51). -/
theorem step_read_inAddr {rest : List Event} (hi : i < s.params.inDepth)
    (h : s.pending = .host (.read (inAddr i)) :: rest) :
    step s = .next { s with pending := rest, response := some ((s.inElem i).setWidth 32) } :=
  step_read_respond h (hostRead_inAddr (s := s.setPending rest) hp hi)

end window

/-! ### What a transaction keeps -/

/-- A write of CTRL, by its bit [1] (10_state.md R13). -/
theorem State.writeCtrl_cases (s : State) (w : Word) :
    (w.getLsbD 1 = true ∧ s.writeCtrl w = s.softReset (w.getLsbD 0)) ∨
    (w.getLsbD 1 = false ∧ s.writeCtrl w = { s with irqEn := w.getLsbD 0 }) := by
  cases hw : w.getLsbD 1 with
  | true => exact .inl ⟨rfl, State.writeCtrl_of_set hw⟩
  | false => exact .inr ⟨rfl, State.writeCtrl_of_clear hw⟩

@[simp] theorem State.writeCtrl_pending (s : State) (w : Word) : (s.writeCtrl w).pending = s.pending := by
  rcases s.writeCtrl_cases w with ⟨-, h⟩ | ⟨-, h⟩ <;> simp [h]

@[simp] theorem State.issue_pending (s : State) (w : Word) : (s.issue w).pending = s.pending := by
  rcases s.issue_cases w with ⟨-, h⟩ | ⟨-, -, h⟩ | ⟨-, i, -, h⟩ <;> simp [h]

@[simp] theorem State.writeInLen_pending (s : State) (w : Word) : (s.writeInLen w).pending = s.pending := by
  cases hs : s.engState <;> simp [State.writeInLen, hs]

@[simp] theorem State.writeInElem_pending (s : State) (i : Nat) (w : Word) :
    (s.writeInElem i w).pending = s.pending := by
  cases hs : s.engState <;> simp [State.writeInElem, hs]

@[simp] theorem hostWrite_pending (a w : Word) (s : State) : (hostWrite a w s).pending = s.pending := by
  rcases hostWrite_cases a w s with ⟨-, h⟩ | ⟨-, h⟩ | ⟨-, h⟩ | ⟨-, h⟩ | ⟨i, -, -, h⟩ | ⟨-, h⟩ <;> simp [h]

/-- A transaction leaves the inputs still to come. -/
theorem transact_pending (x : Transaction) (s : State) : (transact x s).pending = s.pending := by
  cases x with
  | read a =>
    obtain ⟨v, d, h, -, -⟩ := hostRead_eq a s
    simp [transact, h]
  | write a w => simp [transact]

/-- Settles O13: a transaction is one step, a read's answer is that of `hostRead_eq`. -/
theorem everyTransactionCompletes : Obligations.EveryTransactionCompletes := by
  unfold Obligations.EveryTransactionCompletes
  intro s x rest h
  refine ⟨_, step_host h, transact_pending x _, ?_, ?_⟩
  · rintro a rfl
    obtain ⟨v, d, heq, -, -⟩ := hostRead_eq a (s.setPending rest)
    exact ⟨v, by rw [transact, heq]⟩
  · rintro a w rfl
    rfl

/-- Settles O14: `hostRead_eq` at the state whose input is used up. -/
theorem readsHaveNoSideEffect : Obligations.ReadsHaveNoSideEffect := by
  unfold Obligations.ReadsHaveNoSideEffect
  intro s a rest h
  obtain ⟨v, d, heq, -, hd⟩ := hostRead_eq a (s.setPending rest)
  refine ⟨v, d, ?_, hd⟩
  rw [step_host h, transact, heq]
  rfl

/-! ### The address map and the windows (R39 to R42) -/

/-- Settles O15: the twelve word addresses are the registers' own, and an IDLE read is exact. -/
theorem registerAddressesRead : Obligations.RegisterAddressesRead := by
  unfold Obligations.RegisterAddressesRead
  intro s n r rest hs hmem h
  have haddr : BitVec.ofNat 32 n = regAddr r := by fin_cases hmem <;> rfl
  rw [haddr] at h
  refine step_read_respond h ?_
  rw [hostRead_regAddr, State.readReg_of_idle (s := s.setPending rest) hs, State.regWord_setPending]

/-- An IN_BUF with element `i` written shows it there, and what it showed before everywhere else (R25, R41). -/
theorem State.write_inBuf_elems (s : State) (i : Nat) (v : Elem) {t : State} (hb : t.inBuf = s.inBuf.write i v)
    (hf : t.inFill = s.inFill) :
    t.inElem i = v ∧ t.written i = true ∧ ∀ j, j ≠ i → t.inElem j = s.inElem j ∧ t.written j = s.written j := by
  simp only [State.inElem, State.written, hb, hf]
  refine ⟨by simp, by simp, fun j hj => ?_⟩
  simp [Memory.read?_write_ne _ _ hj]

/-- Settles O19: the window's addresses are IN_BUF targets, `writeInElem` is the lock, and the rest is a hole. -/
theorem inBufWindow : Obligations.InBufWindow := by
  unfold Obligations.InBufWindow
  intro s i w rest hp hi
  have hwrite := hostWrite_inAddr (s := s.setPending rest) hp hi w
  refine ⟨fun h hs => ?_, fun h hs => ?_, step_read_inAddr hp hi, fun a hlo hhi => ?_⟩
  · refine ⟨_, step_host h, ?_⟩
    rw [transact, hwrite, State.writeInElem_of_idle (s := s.setPending rest) hs]
    exact ⟨rfl, State.write_inBuf_elems s i _ rfl rfl⟩
  · exact step_write_ignored h (hwrite.trans (State.writeInElem_of_busy (s := s.setPending rest) hs i w))
  · obtain ⟨hr, hw⟩ := holesReadZeroAndIgnoreWrites s a rest hp (.inr (.inl ⟨hlo, by omega⟩))
    exact ⟨hr, hw w⟩

/-- Settles O20: the window's addresses are OUT_BUF targets, which no write changes, and the rest is a hole. -/
theorem outBufWindowReads : Obligations.OutBufWindowReads := by
  unfold Obligations.OutBufWindowReads
  intro s i w rest hp hi
  have hread := hostRead_outAddr (s := s.setPending rest) hp hi
  refine ⟨fun hs h => step_read_respond h ?_, fun h => step_write_ignored h (hostWrite_outAddr hp hi),
    fun a hlo hhi => ?_⟩
  · exact hread.trans (State.readOutElem_of_idle (s := s.setPending rest) hs i)
  · obtain ⟨hr, hw⟩ := holesReadZeroAndIgnoreWrites s a rest hp (.inr (.inr (.inl ⟨hlo, by omega⟩)))
    exact ⟨hr, hw w⟩

/-! ### While BUSY (R50, R51) -/

/-- Settles O21: the result registers and OUT_BUF draw, the other registers and IN_BUF are exact in any state. -/
theorem busyReads : Obligations.BusyReads := by
  unfold Obligations.BusyReads
  intro s rest hp hs
  have hbusy : (s.setPending rest).engState = .busy := hs
  have hresult : ∀ r ∈ [Reg.outLen, .errIndex, .dictSize, .dictResets], isResultReg r = true := by decide
  have hexact : ∀ r ∈ [Reg.id, .param, .inCap, .outCap, .ctrl, .status, .inLen], isResultReg r = false := by decide
  refine ⟨fun r hr h => step_read_draw h ?_, fun i hi h => step_read_draw h ?_,
    fun r hr h => step_read_reg (hexact r hr) h, fun i hi h => step_read_inAddr hp hi h⟩
  · exact (hostRead_regAddr r _).trans (State.readReg_of_busy_result hbusy (hresult r hr))
  · exact (hostRead_outAddr (s := s.setPending rest) hp hi).trans (State.readOutElem_of_busy hbusy i)

theorem State.issue_of_busy {s : State} (hs : s.engState = .busy) (w : Word) : s.issue w = { s with ovr := true } := by
  simp [State.issue, hs]

/-- What the engine of a BUSY block reads: IN_BUF with WRITTEN, and while it stays BUSY the lengths and the opcode. -/
structure State.InputKept (s t : State) : Prop where
  inBuf : t.inBuf = s.inBuf
  inFill : t.inFill = s.inFill
  latches : t.engState = .busy → t.inLen = s.inLen ∧ t.latchedLen = s.latchedLen ∧ t.latchedOp = s.latchedOp

theorem State.InputKept.elems {s t : State} (h : s.InputKept t) (i : Nat) :
    t.inElem i = s.inElem i ∧ t.written i = s.written i := by
  simp [State.inElem, State.written, h.inBuf, h.inFill]

/-- The input is in none of these fields. -/
theorem State.InputKept.free_fields {s : State} (q d o : Bool) (e : ErrCode) (r : Option Word) (n : Nat) :
    s.InputKept { s with irqEn := q, done := d, ovr := o, err := e, response := r, draws := n } :=
  ⟨rfl, rfl, fun _ => ⟨rfl, rfl, rfl⟩⟩

theorem State.InputKept.softReset (s : State) (q : Bool) : s.InputKept (s.softReset q) := ⟨by simp, by simp, by simp⟩

theorem State.InputKept.respondNothing {s t : State} (h : s.InputKept t) : s.InputKept t.respondNothing :=
  ⟨h.inBuf, h.inFill, h.latches⟩

theorem hostWrite_inputKept {s : State} (hs : s.engState = .busy) (a w : Word) : s.InputKept (hostWrite a w s) := by
  rcases hostWrite_cases a w s with ⟨-, h⟩ | ⟨-, h⟩ | ⟨-, h⟩ | ⟨-, h⟩ | ⟨i, -, -, h⟩ | ⟨-, h⟩ <;> rw [h]
  · rcases s.writeCtrl_cases w with ⟨-, h⟩ | ⟨-, h⟩ <;> rw [h]
    · exact .softReset s _
    · exact .free_fields ..
  · rw [State.issue_of_busy hs]
    exact .free_fields ..
  · exact .free_fields ..
  · rw [State.writeInLen_busy hs]
    exact .free_fields ..
  · rw [State.writeInElem_of_busy hs]
    exact .free_fields ..
  · exact .free_fields ..

/-- The input lock: no transaction on a BUSY block changes the input of the command it runs (R50). -/
theorem transact_inputKept {s : State} (hs : s.engState = .busy) (x : Transaction) : s.InputKept (transact x s) := by
  cases x with
  | read a =>
    obtain ⟨v, d, h, -, -⟩ := hostRead_eq a s
    rw [transact, h]
    exact .free_fields ..
  | write a w => exact (hostWrite_inputKept hs a w).respondNothing

/-- Settles O25: the lock is `transact_inputKept`; each register's write is its own rule at a BUSY block. -/
theorem inputLockedWhileBusy : Obligations.InputLockedWhileBusy := by
  unfold Obligations.InputLockedWhileBusy
  intro s t x rest hs h hstep
  have hbusy : (s.setPending rest).engState = .busy := hs
  obtain rfl : transact x (s.setPending rest) = t := by simpa [step_host h] using hstep
  have hkept := transact_inputKept hbusy x
  refine ⟨hkept.elems, hkept.latches, ?_, ?_, ?_, ?_⟩ <;> rintro w rfl <;>
    rw [transact, hostWrite_regAddr, State.writeReg]
  · rw [State.writeInLen_busy hbusy]
    rfl
  · rw [State.issue_of_busy hbusy]
    rfl
  · rcases (s.setPending rest).writeCtrl_cases w with ⟨hw, h⟩ | ⟨hw, h⟩ <;> rw [h, hw]
    · simp
    · simp [hs]
  · exact ⟨fun hw => by simp [hw], fun hw => by simp [hw]⟩

/-! ### Unwritten input (R43) -/

/-- Settles O32: of the three ends of `execute` only the third is a fault, and the lowest unwritten index is one. -/
theorem unwrittenInputFaults : Obligations.UnwrittenInputFaults := by
  unfold Obligations.UnwrittenInputFaults
  intro i s
  rw [exec_eq_execute]
  rcases execute_cases (commandOf i) s with ⟨hlen, heq⟩ | ⟨x, hx, heq⟩ | ⟨j, hlen, hj, hw, hlow, heq⟩ <;> rw [heq]
  · refine ⟨fun f => iff_of_false (by simp) ?_, by simp⟩
    rintro ⟨j, -, hle, -⟩
    omega
  · refine ⟨fun f => iff_of_false (by simp) ?_, by simp⟩
    rintro ⟨j, -, -, hj, hw, -⟩
    rw [hx.written (hx.1 ▸ hj)] at hw
    cases hw
  · refine ⟨fun f => ⟨fun hf => ?_, ?_⟩, by simp⟩
    · cases hf
      exact ⟨j, rfl, hlen, hj, hw, hlow⟩
    · rintro ⟨k, rfl, -, -, hwk, hlowk⟩
      obtain rfl : k = j := by
        rcases lt_trichotomy k j with hkj | hkj | hkj
        · simp [hlow k hkj] at hwk
        · exact hkj
        · simp [hlowk j hkj] at hw
      rfl

/-! ### Results stay (R49) -/

/-- A property that every step keeps holds after any number of steps. -/
theorem runSteps_keeps {P : State → Prop} (hstep : ∀ u v, P u → step u = .next v → P v) {k : Nat} {s t : State}
    (hs : P s) (h : runSteps k s = .next t) : P t := by
  induction k generalizing s with
  | zero =>
    cases h
    exact hs
  | succ k ih =>
    rw [runSteps] at h
    cases hu : step s with
    | next u => exact ih (hstep s u hs hu) (by simpa [hu] using h)
    | fault f => simp [hu] at h
    | refused r => simp [hu] at h

/-- `u` is a state that quiet inputs have led to from the IDLE state `s`: it shows what `s` did, and only quiet inputs
are still to come. -/
structure State.QuietSince (s u : State) : Prop where
  idle : u.engState = .idle
  params : u.params = s.params
  results : s.SameResults u
  pending : ∀ e ∈ u.pending, quietEvent s.params e

namespace State.QuietSince

variable {s u v : State}

/-- None of these fields belongs to the results. -/
theorem free_fields (h : s.QuietSince u) (q d o : Bool) (e : ErrCode) (l : Word) (m : Memory) (r : Option Word)
    (n : Nat) :
    s.QuietSince { u with
      irqEn := q, done := d, ovr := o, err := e, inLen := l, inBuf := m, response := r, draws := n } :=
  ⟨h.idle, h.params, h.results, h.pending⟩

theorem setPending (h : s.QuietSince u) {rest : List Event} (hrest : ∀ e ∈ rest, quietEvent s.params e) :
    s.QuietSince (u.setPending rest) :=
  ⟨h.idle, h.params, h.results, hrest⟩

/-- A quiet write issues no command and resets nothing (R49). -/
theorem hostWrite (h : s.QuietSince u) {a w : Word} (hq : quietEvent s.params (.host (.write a w))) :
    s.QuietSince (hostWrite a w u) := by
  obtain ⟨hcmd, hctrl⟩ := hq
  rcases hostWrite_cases a w u with ⟨ha, heq⟩ | ⟨ha, -⟩ | ⟨-, heq⟩ | ⟨-, heq⟩ | ⟨i, -, -, heq⟩ | ⟨-, heq⟩
  · rw [heq, State.writeCtrl_of_clear (hctrl (target_eq_reg.mpr ha))]
    exact h.free_fields ..
  · exact absurd (target_eq_reg.mpr ha) hcmd
  · rw [heq]
    exact h.free_fields ..
  · rw [heq, State.writeInLen_idle h.idle]
    exact h.free_fields ..
  · rw [heq, State.writeInElem_of_idle h.idle]
    exact h.free_fields ..
  · rw [heq]
    exact h

theorem transact (h : s.QuietSince u) {x : Transaction} (hq : quietEvent s.params (.host x)) :
    s.QuietSince (transact x u) := by
  cases x with
  | read a =>
    obtain ⟨v, d, heq, -, -⟩ := hostRead_eq a u
    rw [Machine.transact, heq]
    exact h.free_fields ..
  | write a w => exact (h.hostWrite hq).free_fields ..

/-- A step uses up one quiet input, or finds the engine IDLE. -/
theorem step (h : s.QuietSince u) (hv : step u = .next v) : s.QuietSince v := by
  rcases step_next hv with ⟨u', hu', hcase⟩ | ⟨x, rest, hp, rfl⟩ | ⟨rest, hp, -⟩
  · obtain rfl : v = u' := by simpa [h.idle] using hcase
    rcases hu' with ⟨rfl, -⟩ | ⟨rest, rfl, hp⟩
    · exact h
    · exact h.setPending fun e he => h.pending e (by simp [hp, he])
  · have hrest : ∀ e ∈ rest, quietEvent s.params e := fun e he => h.pending e (by simp [hp, he])
    exact (h.setPending hrest).transact (h.pending (.host x) (by simp [hp]))
  · exact (h.pending .rst (by simp [hp])).elim

end State.QuietSince

/-- Settles O26: `QuietSince` holds of the IDLE state itself, and every step keeps it. -/
theorem resultsStayUntilNextCommand : Obligations.ResultsStayUntilNextCommand := by
  unfold Obligations.ResultsStayUntilNextCommand
  intro k s t hs hquiet h
  have h0 : s.QuietSince s := ⟨hs, rfl, ⟨fun _ => rfl, rfl, rfl, rfl, rfl⟩, hquiet⟩
  have ht : s.QuietSince t := runSteps_keeps (fun _ _ => State.QuietSince.step) h0 h
  exact ⟨ht.idle, ht.results⟩

end Sys2Proof.Machine
end

section
/-! PROOFS. Family 30_encoding.md: when a command word names a command and when it is refused, field by field, and the
host's acknowledgement line. -/

namespace Sys2Proof

/-! ### Command words by their fields (30_encoding.md R53 to R55) -/

theorem encode_eq_append_op (i : Instr) : encode i = (0#28 ++ i.op : BitVec 32) := by cases i <;> rfl

theorem decodeWord_eq_ok {w : Word} {i : Instr} :
    decodeWord w = .ok i ↔ w.extractLsb' 4 28 = 0#28 ∧ w.extractLsb' 0 4 = i.op := by
  by_cases hrsvd : w.extractLsb' 4 28 = 0#28
  · rw [decodeWord, if_pos hrsvd, decodeOp_eq_ok, and_iff_right hrsvd]
  · simp [decodeWord, hrsvd]

theorem decodeWord_eq_error {w : Word} :
    (∃ e, decodeWord w = .error e) ↔
      (w.extractLsb' 0 4 = 0#4 ∨ 6 ≤ (w.extractLsb' 0 4).toNat) ∨ w.extractLsb' 4 28 ≠ 0#28 := by
  by_cases hrsvd : w.extractLsb' 4 28 = 0#28
  · rw [decodeWord, if_pos hrsvd, decodeOp_eq_error, or_iff_left (not_not_intro hrsvd)]
  · simp [decodeWord, hrsvd]

/-- Settles O2: a word that decodes to `i` has RSVD = 0 above the opcode of `i`, and `encode i` is the word with these
fields. -/
theorem decodeAgreesWithEncode : Obligations.DecodeAgreesWithEncode := by
  unfold Obligations.DecodeAgreesWithEncode
  intro w i
  constructor
  · intro h
    obtain ⟨hrsvd, hop⟩ := decodeWord_eq_ok.mp h
    calc
      w = (w.extractLsb' 4 28 ++ w.extractLsb' 0 4 : BitVec 32) := word_eq_fields w
      _ = (0#28 ++ i.op : BitVec 32) := by rw [hrsvd, hop]
      _ = encode i := (encode_eq_append_op i).symm
  · rintro rfl
    exact decodeWord_encode i

/-- Settles O3: a set reserved bit refuses the word, and below it OP is refused by the opcode map. -/
theorem illegalWordsAreRefused : Obligations.IllegalWordsAreRefused := by
  unfold Obligations.IllegalWordsAreRefused
  intro w
  rw [decodeWord_eq_error, or_assoc]

/-- Settles O1: the five words are the encodings of the five commands. -/
theorem tableWordsDecode : Obligations.TableWordsDecode := by
  unfold Obligations.TableWordsDecode
  exact ⟨decodeWord_encode .unpack, decodeWord_encode .pack, decodeWord_encode .decode,
    decodeWord_encode .decodePacked, decodeWord_encode .encode⟩

end Sys2Proof

namespace Sys2Proof.Machine

/-! ### The acknowledgement (R63, 60_exceptions.md R110) -/

/-- A STATUS write with bits [1] and [8] set clears DONE, ERR and OVR (10_state.md R15). -/
theorem State.clearStatus_of_both {w : Word} (s : State) (h1 : w.getLsbD 1 = true) (h8 : w.getLsbD 8 = true) :
    s.clearStatus w = { s with done := false, err := .none, ovr := false } := by
  rw [State.clearStatus_eq, if_pos h1, if_pos h1, if_pos h8]

/-- Settles O28: the line is a STATUS write with bits [1] and [8] set, and irq needs DONE. -/
theorem ackClearsStatus : Obligations.AckClearsStatus := by
  unfold Obligations.AckClearsStatus
  intro s rest h
  refine ⟨_, step_write_reg (r := .status) (w := 0x00000102#32) h, ?_, ?_⟩ <;>
    rw [State.writeReg, State.clearStatus_of_both _ (by decide) (by decide)]
  · rfl
  · simp [State.irq]

end Sys2Proof.Machine
end

section
/-! PROOFS. Family 40_bitpacker.md: the code and byte sequences without their cursors, the three invertibility laws,
the output counts, and what UNPACK and PACK output on an input that raises no error. -/

namespace Sys2Proof.Machine

/-! ### The two sequences by groups, without cursors (40_bitpacker.md R64, R68) -/

/-- The codes do not depend on the index their cursors count from. -/
theorem unpackFrom_codes (r : Residue1) (i : Nat) (b : List Byte) :
    (unpackFrom r i b).map (·.1) = unpackCodes r b := by
  unfold unpackCodes
  induction b using byteGroups_induction generalizing i with
  | nil | one | two => simp
  | four b0 b1 b2 b3 => cases r <;> simp [residueCodes]
  | group b0 b1 b2 rest hrest ih =>
    simp only [unpackFrom_group _ _ _ _ _ hrest, List.map_cons, ih (i + 3), ih (0 + 3)]

@[simp] theorem unpackCodes_nil (r : Residue1) : unpackCodes r [] = [] := by simp [unpackCodes]

@[simp] theorem unpackCodes_two (r : Residue1) (b0 b1 : Byte) : unpackCodes r [b0, b1] = [second b0 b1] := by
  simp [unpackCodes]

theorem unpackCodes_group (r : Residue1) (b0 b1 b2 : Byte) {rest : List Byte} (h : rest.length ≠ 1) :
    unpackCodes r (b0 :: b1 :: b2 :: rest) = first b0 b1 :: second b1 b2 :: unpackCodes r rest := by
  rw [unpackCodes, unpackFrom_group _ _ _ _ _ h, List.map_cons, List.map_cons, unpackFrom_codes]

/-- The bytes do not depend on the index their cursors count from. -/
theorem packFrom_bytes (i : Nat) (c : List Code) : (packFrom i c).map (·.1) = packBytes c := by
  unfold packBytes
  induction c using codeGroups_induction generalizing i with
  | nil | one => rfl
  | group c0 c1 rest ih => simp only [packFrom_group, List.map_cons, ih (i + 2), ih (0 + 2)]

@[simp] theorem packBytes_nil : packBytes [] = [] := rfl

@[simp] theorem packBytes_one (c : Code) : packBytes [c] = [tailT0 c, tailT1 c] := rfl

@[simp] theorem packBytes_group (c0 c1 : Code) (rest : List Code) :
    packBytes (c0 :: c1 :: rest) = groupB0 c0 :: groupB1 c0 c1 :: groupB2 c1 :: packBytes rest := by
  rw [packBytes, packFrom_group, List.map_cons, List.map_cons, List.map_cons, packFrom_bytes]

/-! ### Output counts (R66, R69) -/

@[simp] theorem unpackCodes_length (r : Residue1) (b : List Byte) :
    (unpackCodes r b).length = unpackCount r b.length := by
  rw [unpackCodes, List.length_map, unpackFrom_length]

@[simp] theorem packBytes_length (c : List Code) : (packBytes c).length = packCount c.length := by
  rw [packBytes, List.length_map, packFrom_length]

/-- PACK never gives a length of the form 3k+1 (30_encoding.md R60). -/
theorem packCount_mod_three (n : Nat) : packCount n % 3 ≠ 1 := by
  unfold packCount
  omega

/-! ### Invertibility (R71) -/

theorem unpackCodes_packBytes (r : Residue1) (c : List Code) : unpackCodes r (packBytes c) = c := by
  induction c using codeGroups_induction with
  | nil => simp
  | one c => simp [second_tailT]
  | group c0 c1 rest ih =>
    have hrest : (packBytes rest).length ≠ 1 := by
      have hmod := packCount_mod_three rest.length
      rw [packBytes_length]
      omega
    rw [packBytes_group, unpackCodes_group _ _ _ _ hrest, first_groupB, second_groupB, ih]

/-- One whole group of bytes survives the round trip in front of any rest. -/
theorem packBytes_unpackCodes_group (r : Residue1) (b0 b1 b2 : Byte) {rest : List Byte} (h : rest.length ≠ 1) :
    packBytes (unpackCodes r (b0 :: b1 :: b2 :: rest)) = b0 :: b1 :: b2 :: packBytes (unpackCodes r rest) := by
  rw [unpackCodes_group _ _ _ _ h, packBytes_group, groupB0_first, groupB1_first_second, groupB2_second]

theorem packBytes_unpackCodes (r : Residue1) (b : List Byte) (h : b.length % 3 = 0) :
    packBytes (unpackCodes r b) = b := by
  induction b using byteGroups_induction with
  | nil => simp
  | one | two | four => simp at h
  | group b0 b1 b2 rest hrest ih =>
    rw [packBytes_unpackCodes_group _ _ _ _ hrest, ih (by simpa [Nat.add_assoc] using h)]

theorem packBytes_unpackCodes_tail (r : Residue1) (b : List Byte) (h : b.length % 3 = 2) :
    packBytes (unpackCodes r b) = b.set (b.length - 2) (b.getD (b.length - 2) 0#8 &&& 0x0F#8) := by
  induction b using byteGroups_induction with
  | nil | one | four => simp at h
  | two b0 b1 => simp [tailT0_second, tailT1_second]
  | group b0 b1 b2 rest hrest ih =>
    have hmod : rest.length % 3 = 2 := by simpa [Nat.add_assoc] using h
    have hidx : (b0 :: b1 :: b2 :: rest).length - 2 = rest.length - 2 + 3 := by
      simp only [List.length_cons]
      omega
    rw [packBytes_unpackCodes_group _ _ _ _ hrest, ih hmod, hidx]
    rfl

/-- Settles O48: group by group, since no packed stream ends in the byte that UNPACK_RESIDUE1 is about. -/
theorem packingIsInvertible : Obligations.PackingIsInvertible := by
  unfold Obligations.PackingIsInvertible
  exact fun r => ⟨unpackCodes_packBytes r, packBytes_unpackCodes r, packBytes_unpackCodes_tail r⟩

/-! ### The dictionary readbacks (R72) -/

/-- No end of a command without a dictionary writes the readbacks. -/
theorem exec_keepsDict {i : Instr} {s t : State} (hu : usesDict i = false) (h : exec i s = .next t) :
    s.KeepsDict t := by
  obtain ⟨b, -, rfl⟩ := exec_bounded h
  exact s.complete_keepsDict ((commandOf_hasDict i).trans hu) b

/-- Settles O34: neither command has a dictionary. -/
theorem packerKeepsDictRegisters : Obligations.PackerKeepsDictRegisters := by
  unfold Obligations.PackerKeepsDictRegisters
  rintro s t (h | h)
  · exact exec_keepsDict (i := .pack) rfl h
  · exact exec_keepsDict (i := .unpack) rfl h

/-! ### First and Second in shift-and-mask form (R65) -/

theorem first_eq_shift_or (p q : Byte) : first p q = (p.setWidth 12 <<< 4) ||| (q.setWidth 12 >>> 4) := by
  have hlow : (q.extractLsb' 4 4).setWidth 12 = q.setWidth 12 >>> 4 := by
    apply BitVec.eq_of_toNat_eq
    simp only [BitVec.toNat_setWidth, BitVec.extractLsb'_toNat, BitVec.toNat_ushiftRight, Nat.shiftRight_eq_div_pow]
    omega
  rw [← hlow, ← BitVec.setWidth_append_eq_shiftLeft_setWidth_or]
  exact (BitVec.setWidth_eq _).symm

theorem second_eq_mask_shift_or (p q : Byte) :
    second p q = ((p.setWidth 12 &&& 0xF#12) <<< 8) ||| q.setWidth 12 := by
  have hhigh : (p.extractLsb' 0 4).setWidth 12 = p.setWidth 12 &&& 0xF#12 := by
    apply BitVec.eq_of_toNat_eq
    simp only [BitVec.toNat_setWidth, BitVec.extractLsb'_toNat, BitVec.toNat_and, BitVec.toNat_ofNat,
      Nat.shiftRight_zero, show 15 % 2 ^ 12 = 2 ^ 4 - 1 by rfl, Nat.and_two_pow_sub_one_eq_mod]
    omega
  rw [← hhigh, ← BitVec.setWidth_append_eq_shiftLeft_setWidth_or]
  exact (BitVec.setWidth_eq _).symm

/-- Settles O41: a concatenation of fields is the disjunction of the shifted fields. -/
theorem extractionIsShiftAndMask : Obligations.ExtractionIsShiftAndMask := by
  unfold Obligations.ExtractionIsShiftAndMask
  exact fun p q => ⟨rfl, rfl, first_eq_shift_or p q, second_eq_mask_shift_or p q⟩

/-! ### UNPACK's output (R64, R66) -/

/-- UNPACK's body when its codes fit. -/
theorem unpackTrace_finish {r : Residue1} {b : List Byte} {cap : Nat} (h : unpackCount r b.length ≤ cap) :
    (unpackTrace r b).finish cap = .success ((unpackCodes r b).map codeElem) .fresh := by
  rw [Trace.finish_success (by rwa [unpackTrace_length]) rfl, unpackTrace_values]
  rfl

theorem getD_map_codeElem (c : List Code) (j : Nat) : (c.map codeElem).getD j 0#16 = codeElem (c.getD j 0#12) :=
  List.getD_map c 0#12 codeElem

/-- Settles O42: the run is `unpackTrace`, and its codes are read group by group. -/
theorem unpackOutput : Obligations.UnpackOutput := by
  unfold Obligations.UnpackOutput
  intro s b hp hx hframe hfit
  obtain ⟨t, hnext, hok, hkeep, -⟩ :=
    exec_of_success (i := .unpack) hp hx ((unpack_run hframe).trans (unpackTrace_finish hfit))
  refine ⟨t, _, hnext, hok, hkeep rfl, ?_, fun j hj => ?_, fun htail => ?_⟩
  · rw [List.length_map, unpackCodes_length]
  · obtain ⟨hfirst, hsecond⟩ := unpackFrom_group_codes s.params.residue1 b 0 j hj
    rw [getD_map_codeElem, getD_map_codeElem, unpackCodes, hfirst, hsecond]
    exact ⟨rfl, rfl⟩
  · rw [List.length_map, unpackCodes, List.length_map] at htail
    rw [getD_map_codeElem, unpackCodes, unpackFrom_tail_code s.params.residue1 b 0 htail]

/-- Settles O43: `unpackCount` written out. -/
theorem unpackOutputCount : Obligations.UnpackOutputCount := by
  unfold Obligations.UnpackOutputCount
  intro r b
  rw [unpackCodes_length]
  exact ⟨fun h => if_neg (Nat.not_lt.mpr h), fun h => if_pos h, fun _ => unpackCount_le r b.length⟩

/-! ### PACK's output (R68, R69) -/

/-- PACK's body when its bytes fit. -/
theorem packTrace_finish {c : List Code} {cap : Nat} (h : packCount c.length ≤ cap) :
    (packTrace c).finish cap = .success ((packBytes c).map byteElem) .fresh := by
  rw [Trace.finish_success (by rwa [packTrace_length]) rfl, packTrace_values]
  rfl

/-- Settles O45: the run is `packTrace`, and its bytes are read group by group, field by field. -/
theorem packOutput : Obligations.PackOutput := by
  unfold Obligations.PackOutput
  intro s c hp hx hfit
  obtain ⟨t, hnext, hok, hkeep, -⟩ :=
    exec_of_success (i := .pack) hp hx (pack_run.trans (packTrace_finish hfit))
  refine ⟨t, _, hnext, hok, hkeep rfl, packBytes_length c, fun j hj => ?_, fun hodd => ?_⟩
  · obtain ⟨h0, h1, h2⟩ := packFrom_group_bytes c 0 j hj
    rw [packBytes, h0, h1, h2]
    exact ⟨rfl, BitVec.extractLsb'_append_eq_left, BitVec.extractLsb'_append_eq_right, rfl⟩
  · obtain ⟨h0, h1⟩ := packFrom_tail_bytes c 0 hodd
    rw [packBytes_length, packBytes, h0, h1]
    exact ⟨BitVec.extractLsb'_append_eq_left, BitVec.extractLsb'_append_eq_right, rfl⟩

/-- Settles O46: `packCount` written out. -/
theorem packOutputCount : Obligations.PackOutputCount := by
  unfold Obligations.PackOutputCount
  intro c
  rw [packBytes_length, packCount]
  refine ⟨rfl, ?_, fun heven => ?_⟩ <;> omega

end Sys2Proof.Machine
end

section
/-! PROOFS. Family 41_decode.md: the ends of DECODE's body as completions, stated once for the two commands that run
it, and what DECODE_PACKED shares with UNPACK followed by DECODE. -/

namespace Sys2Proof.Machine

/-! ### No codes (41_decode.md R74) -/

theorem State.hasInput_nil {s : State} (h : s.latchedLen = 0#32) : s.HasInput [] := by
  simp [State.HasInput, h]

/-- Settles O49: the input is empty, so the body ends at once and the completion writes no element. -/
theorem decodeOfNothing : Obligations.DecodeOfNothing := by
  unfold Obligations.DecodeOfNothing
  intro s hlen
  have hrun : (commandOf .decode).run s.params [] = .success [] .fresh := rfl
  refine ⟨_, exec_of_hasInput (State.hasInput_nil hlen), ?_, ?_, fun j => ?_⟩ <;> rw [hrun]
  · exact s.completeOk_succeeded _ (by simp)
  · exact s.complete_showsDict rfl (.success [] .fresh) (by decide) (by decide)
  · exact s.completeOk_outElem [] _ j

/-! ### The counting law in the form of R83 -/

theorem decCount_size (i : Nat) : (decCount i).size = 256 + (i - 1) - 3840 * ((i - 1) / 3840) := by
  simp only [decCount]
  omega

/-! ### A command that runs DECODE's body on the codes `ks` (R73, R84) -/

section decodeBody

variable {i : Instr} {s : State} {x : List Elem} {ks : List Nat} {P : List Pattern} (hu : usesDict i = true)
  (hp : s.params.wf = true) (hx : s.HasInput x)
  (hrun : (commandOf i).run s.params x = (decodeTrace ks).finish s.params.outDepth)

include hu hp hx hrun

/-- All codes are accepted and their patterns fit (R78, R81). -/
theorem exec_decodeBody_accepted (hv : CodesValid ks) (hd : DecodesTo ks P)
    (hfit : P.flatten.length ≤ s.params.outDepth) :
    ∃ t, exec i s = .next t ∧ t.Succeeded (P.flatten.map byteElem) ∧
      t.ShowsDict (256 + (ks.length - 1) - 3840 * ((ks.length - 2) / 3840)) ((ks.length - 2) / 3840) := by
  obtain ⟨t, hnext, hok, -, hdict, -⟩ := exec_of_success hp hx (hrun.trans (decodeTrace_finish hv hd hfit))
  have hsize : 256 + (ks.length - 1) - 3840 * ((ks.length - 2) / 3840) =
      256 + (ks.length - 1 - 3840 * ((ks.length - 2) / 3840)) := by omega
  rw [hsize]
  exact ⟨t, hnext, hok, hdict hu⟩

/-- An error of the body at code `n` shows the readbacks that hold while code `n` is handled (R81, R83). -/
theorem exec_decodeBody_error {e : ErrCode} {n : Nat}
    (hend : (decodeTrace ks).finish s.params.outDepth = .error { code := e, cursor := n } (decCount n)) :
    ∃ t, exec i s = .next t ∧ t.Failed e n ∧
      t.ShowsDict (256 + (n - 1) - 3840 * ((n - 1) / 3840)) ((n - 1) / 3840) := by
  obtain ⟨t, hnext, hfail, -, hdict⟩ := exec_of_error hp hx (hrun.trans hend)
  rw [← decCount_size]
  exact ⟨t, hnext, hfail, hdict hu⟩

/-- Code `n` is the first that is not accepted, and the patterns before it fit (R75, R77, R105). -/
theorem exec_decodeBody_invalid {n : Nat} (hn : n < ks.length) (hbad : ¬ codeAllowed n ks[n])
    (hv : CodesValid (ks.take n)) (hd : DecodesTo (ks.take n) P) (hfit : P.flatten.length ≤ s.params.outDepth) :
    ∃ t, exec i s = .next t ∧ t.Failed .invalidCode n ∧
      t.ShowsDict (256 + (n - 1) - 3840 * ((n - 1) / 3840)) ((n - 1) / 3840) :=
  exec_decodeBody_error hu hp hx hrun (decodeTrace_finish_invalid hn hbad hv hd hfit)

/-- The codes up to `n` are accepted, and the pattern of code `n` is the first that does not fit (R78, R106). -/
theorem exec_decodeBody_overflow {n : Nat} (hn : n < ks.length) (hv : CodesValid (ks.take (n + 1)))
    (hd : DecodesTo (ks.take (n + 1)) P) (hfit : (P.take n).flatten.length ≤ s.params.outDepth)
    (hov : s.params.outDepth < P.flatten.length) :
    ∃ t, exec i s = .next t ∧ t.Failed .outputOverflow n ∧
      t.ShowsDict (256 + (n - 1) - 3840 * ((n - 1) / 3840)) ((n - 1) / 3840) :=
  exec_decodeBody_error hu hp hx hrun (decodeTrace_finish_overflow hn hv hd hfit hov)

end decodeBody

/-- Settles O50: DECODE runs its body on the elements' values, and every accepted stream has its patterns. -/
theorem decodeOutput : Obligations.DecodeOutput := by
  unfold Obligations.DecodeOutput
  intro s x hp hx hv
  refine ⟨exists_decodesTo hv, fun P hd hfit => ?_⟩
  simpa using exec_decodeBody_accepted rfl hp hx decode_run hv hd hfit

/-- Settles O53: DECODE_PACKED runs DECODE's body on the unpacked codes, of which there are `unpackCount`. -/
theorem decodePackedOutput : Obligations.DecodePackedOutput := by
  unfold Obligations.DecodePackedOutput
  intro s b P hp hx hframe hv hd hfit
  simpa using exec_decodeBody_accepted rfl hp hx (decodePacked_run hframe) hv hd hfit

/-- Settles O51: both commands run the same body, on the elements' values and on the unpacked codes. -/
theorem decodeInvalidCode : Obligations.DecodeInvalidCode := by
  unfold Obligations.DecodeInvalidCode
  constructor
  · intro s x i hi P hp hx hbad hv hd hfit
    rw [List.map_take] at hv hd
    exact exec_decodeBody_invalid rfl hp hx decode_run (by simpa using hi) (by simpa using hbad) hv hd hfit
  · rintro s b q i hi P hp hx hframe rfl hbad hv hd hfit
    rw [List.map_take] at hv hd
    exact exec_decodeBody_invalid rfl hp hx (decodePacked_run hframe) (by simpa using hi) (by simpa using hbad) hv hd
      hfit

/-- Settles O52: both commands run the same body, on the elements' values and on the unpacked codes. -/
theorem decodeOverflow : Obligations.DecodeOverflow := by
  unfold Obligations.DecodeOverflow
  constructor
  · intro s x i P hp hx hi hv hd hfit hov
    rw [List.map_take] at hv hd
    exact exec_decodeBody_overflow rfl hp hx decode_run (by simpa using hi) hv hd hfit hov
  · rintro s b q i P hp hx hframe rfl hi hv hd hfit hov
    rw [List.map_take] at hv hd
    exact exec_decodeBody_overflow rfl hp hx (decodePacked_run hframe) (by simpa using hi) hv hd hfit hov

/-! ### DECODE_PACKED after UNPACK (R86) -/

/-- A command that left its success with output `y` ran to that success: an error of a run is never `none`. -/
theorem run_of_succeeded {i : Instr} {s t : State} {x y : List Elem} (hp : s.params.wf = true) (hx : s.HasInput x)
    (ht : exec i s = .next t) (hok : t.Succeeded y) : ∃ d, (commandOf i).run s.params x = .success y d := by
  cases hrun : (commandOf i).run s.params x with
  | success out d =>
    obtain ⟨t', hnext, hok', -⟩ := exec_of_success hp hx hrun
    obtain rfl : t' = t := by simpa [hnext] using ht
    exact ⟨d, by rw [hok.unique hok']⟩
  | error e d =>
    obtain ⟨t', hnext, ⟨-, herr, -⟩, -⟩ := exec_of_error hp hx hrun
    obtain rfl : t' = t := by simpa [hnext] using ht
    have hne : e.code ≠ .none := by
      have hbound := (run_bounded i s.params x).2
      rw [hrun] at hbound
      exact hbound.1
    obtain ⟨-, hnone, -⟩ := hok
    exact absurd (herr.symm.trans hnone) hne

/-- A run that succeeds passed its checks, and its output is every value that its body emits. -/
theorem Command.run_eq_success {c : Command} {p : Params} {x out : List Elem} {d : DictCount}
    (h : c.run p x = .success out d) : c.check p x = none ∧ out = (c.body p x).emissions.map (·.value) := by
  cases hc : c.check p x with
  | some e => simp [Command.run_of_check hc] at h
  | none =>
    rw [Command.run_of_pass hc] at h
    rcases (c.body p x).finish_cases p.outDepth with ⟨em, -, hf⟩ | ⟨e, -, -, hf⟩ | ⟨-, -, hf⟩ <;> rw [hf] at h <;>
      cases h
    exact ⟨rfl, rfl⟩

/-- DECODE_PACKED on the input of an UNPACK that succeeds ends as DECODE on its output. -/
theorem decodePacked_run_of_unpack {p : Params} {x y : List Elem} {d : DictCount}
    (h : (commandOf .unpack).run p x = .success y d) :
    (commandOf .decodePacked).run p x = (commandOf .decode).run p y := by
  obtain ⟨hcheck, hy⟩ := Command.run_eq_success h
  have hcodes : y = (unpackCodes p.residue1 (x.map byteOf)).map codeElem := hy.trans (unpackTrace_values _ _)
  have hvalues : y.map (·.toNat) = (unpackCodes p.residue1 (x.map byteOf)).map (·.toNat) := by
    simp [hcodes]
  have hpass : (commandOf .decodePacked).check p x = none := hcheck
  rw [Command.run_of_pass hpass, decode_run, hvalues]
  rfl

/-- Of a command, a completion uses only whether it has a dictionary (R103). -/
theorem State.complete_congr (s : State) {c c' : Command} (h : c.hasDict = c'.hasDict) (b : BodyEnd) :
    s.complete c b = s.complete c' b := by
  cases b <;> simp [State.complete, Command.readback, h]

/-- Settles O54: the two runs have one end, and a completion's results are fixed by it. -/
theorem decodePackedIsUnpackThenDecode : Obligations.DecodePackedIsUnpackThenDecode := by
  unfold Obligations.DecodePackedIsUnpackThenDecode
  intro s u s' x y hp hx hu hok hparams hy
  obtain ⟨d, hrun⟩ := run_of_succeeded hp hx hu hok
  have ht := exec_of_hasInput (i := .decodePacked) hx
  rw [decodePacked_run_of_unpack hrun,
    s.complete_congr (c := commandOf .decodePacked) (c' := commandOf .decode) rfl] at ht
  have ht' := exec_of_hasInput (i := .decode) hy
  rw [hparams] at ht'
  generalize (commandOf .decode).run s.params y = b at ht ht'
  obtain ⟨herr, hidx, hlen, helem⟩ := s'.complete_results s (commandOf .decode) b
  obtain ⟨hsize, hresets⟩ := s.complete_dict (c := commandOf .decode) rfl b
  obtain ⟨hsize', hresets'⟩ := s'.complete_dict (c := commandOf .decode) rfl b
  exact ⟨_, _, ht, ht', herr, hidx, hlen, hsize.trans hsize'.symm, hresets.trans hresets'.symm,
    fun j hj => helem j (hlen ▸ hj)⟩

end Sys2Proof.Machine
end

section
/-! PROOFS. Family 42_encode.md: the two ends of ENCODE on the greedy parse of its text, what a success of it says
about its output, and the round trip. -/

namespace Sys2Proof.Machine

/-! ### The end of ENCODE by what fits (R89, R91, R93, R104) -/

/-- ENCODE's body when the codes of the parse do not fit: emission number `cap` raises the error at its own cursor. -/
theorem encodeTrace_finish_overflow {b : List Byte} {P : List Pattern} {cs : List Nat} {cap : Nat}
    (h : GreedyParse b P cs) (hov : cap < cs.length) :
    (encodeTrace b).finish cap =
      .error { code := .outputOverflow, cursor := (P.take (cap + 1)).flatten.length } (encCount cap) := by
  rw [encodeTrace_parse h, Trace.finish_overflow (em := encEmission P cs cap) (by simp [hov])]
  rfl

section parse

variable {s : State} {b : List Byte} {P : List Pattern} {cs : List Nat} (hp : s.params.wf = true)
  (hx : s.HasInput (b.map byteElem)) (h : GreedyParse b P cs)

include hp hx h

theorem exec_encode_of_fit (hfit : cs.length ≤ s.params.outDepth) :
    ∃ t, exec .encode s = .next t ∧ t.Succeeded (cs.map (BitVec.ofNat 16)) ∧
      t.ShowsDict (256 + (cs.length - 1) % 3840) ((cs.length - 1) / 3840) := by
  obtain ⟨t, hnext, hok, -, hdict, -⟩ := exec_of_success hp hx (encode_run.trans (encodeTrace_finish h hfit))
  exact ⟨t, hnext, hok, hdict rfl⟩

theorem exec_encode_of_overflow (hov : s.params.outDepth < cs.length) :
    ∃ t, exec .encode s = .next t ∧
      t.Failed .outputOverflow (P.take (s.params.outDepth + 1)).flatten.length ∧
      t.ShowsDict (256 + s.params.outDepth % 3840) (s.params.outDepth / 3840) := by
  obtain ⟨t, hnext, hfail, -, hdict⟩ := exec_of_error hp hx (encode_run.trans (encodeTrace_finish_overflow h hov))
  exact ⟨t, hnext, hfail, hdict rfl⟩

end parse

/-- Settles O56: the body emits the codes of any greedy parse, and these are at most as many as the bytes. -/
theorem encodeOutput : Obligations.EncodeOutput := by
  unfold Obligations.EncodeOutput
  intro s b hp hx
  obtain ⟨P, cs, h⟩ := exists_greedyParse b
  refine ⟨⟨P, cs, h⟩, fun P cs h hfit => exec_encode_of_fit hp hx h hfit, fun hdepth => ?_⟩
  obtain ⟨t, hnext, hok, -⟩ := exec_encode_of_fit hp hx h (h.length_le.trans hdepth)
  exact ⟨t, _, hnext, hok⟩

/-- Settles O58: emission number OUT_DEPTH of the parse is the one that does not fit. -/
theorem encodeOverflow : Obligations.EncodeOverflow := by
  unfold Obligations.EncodeOverflow
  exact fun s b P cs hp hx h hov => exec_encode_of_overflow hp hx h hov

/-! ### What a success says (R94) -/

/-- The codes of a greedy parse are 12-bit values (R57, R94). -/
theorem GreedyParse.exists_codes {b : List Byte} {P : List Pattern} {cs : List Nat} (h : GreedyParse b P cs) :
    ∃ c : List Code, cs = c.map (·.toNat) := by
  refine ⟨cs.map (BitVec.ofNat 12), List.ext_getElem (by simp) fun i hi _ => ?_⟩
  have := h.code_le hi
  simp only [List.getElem_map, BitVec.toNat_ofNat]
  omega

/-- The elements that ENCODE emits for codes are those codes' elements. -/
theorem map_ofNat_toNat (c : List Code) : (c.map (·.toNat)).map (BitVec.ofNat 16) = c.map codeElem := by
  simp [codeElem]

/-- The output of an ENCODE that succeeded is the codes of a greedy parse of its text: had they not fitted, it would
have reported an error. -/
theorem encode_output_of_succeeded {s t : State} {b : List Byte} {y : List Elem} (hp : s.params.wf = true)
    (hx : s.HasInput (b.map byteElem)) (ht : exec .encode s = .next t) (hok : t.Succeeded y) :
    ∃ (P : List Pattern) (c : List Code), GreedyParse b P (c.map (·.toNat)) ∧ y = c.map codeElem ∧
      t.ShowsDict (256 + (y.length - 1) % 3840) ((y.length - 1) / 3840) := by
  obtain ⟨P, cs, h⟩ := exists_greedyParse b
  obtain ⟨c, rfl⟩ := h.exists_codes
  rcases Nat.lt_or_ge s.params.outDepth (c.map (·.toNat)).length with hov | hfit
  · obtain ⟨t', hnext, ⟨-, herr, -⟩, -⟩ := exec_encode_of_overflow hp hx h hov
    obtain rfl : t' = t := by simpa [hnext] using ht
    obtain ⟨-, hnone, -⟩ := hok
    rw [herr] at hnone
    cases hnone
  · obtain ⟨t', hnext, hok', hdict⟩ := exec_encode_of_fit hp hx h hfit
    obtain rfl : t' = t := by simpa [hnext] using ht
    rw [map_ofNat_toNat] at hok'
    obtain rfl := hok.unique hok'
    exact ⟨P, c, h, rfl, by simpa using hdict⟩

/-- Settles O57: the counts and the bound are those of the greedy parse. -/
theorem encodeOutputBounds : Obligations.EncodeOutputBounds := by
  unfold Obligations.EncodeOutputBounds
  intro s t b y hp hx ht hok
  obtain ⟨P, c, h, hy, hdict⟩ := encode_output_of_succeeded hp hx ht hok
  have hlen : y.length = (c.map (·.toNat)).length := by simp [hy]
  refine ⟨hlen ▸ h.length_eq_zero, hlen ▸ h.length_le, fun e he => ?_, ?_⟩
  · subst hy
    obtain ⟨k, hk, rfl⟩ := List.mem_map.mp he
    obtain ⟨i, hi, hik⟩ := List.mem_iff_getElem.mp (List.mem_map_of_mem (f := (·.toNat)) hk)
    rw [codeElem_toNat, ← hik]
    exact h.code_le hi
  · rwa [Nat.add_sub_assoc (Nat.mul_div_le _ _), ← Nat.mod_eq_sub_mul_div]

/-! ### DICT_SIZE (R93) -/

/-- ENCODE resets its dictionary before it ends with 4096 entries, and a check's error shows a fresh one. -/
theorem encode_run_dict_size_le (p : Params) (x : List Elem) : ((commandOf .encode).run p x).dict.size ≤ 4095 := by
  cases hc : (commandOf .encode).check p x with
  | some e =>
    rw [Command.run_of_check hc]
    exact (by decide : DictCount.fresh.size ≤ 4095)
  | none =>
    rw [Command.run_of_pass hc]
    obtain ⟨-, hem, hend, -⟩ := encodeTrace_bounded (x.map byteOf)
    rcases Trace.finish_cases ((commandOf .encode).body p x) p.outDepth with
      ⟨em, hget, hf⟩ | ⟨e, -, -, hf⟩ | ⟨-, -, hf⟩ <;> rw [hf]
    · exact hem em (List.mem_of_getElem? hget)
    · exact hend
    · exact hend

/-- Settles O59: a completion writes the size that the run ends with, which is at most 4095. -/
theorem encodeDictSizeRange : Obligations.EncodeDictSizeRange := by
  unfold Obligations.EncodeDictSizeRange
  intro s t h
  have hle : ∀ e : BodyEnd, e.dict.size ≤ 4095 → (s.complete (commandOf .encode) e).dictSize.toNat ≤ 4095 := by
    intro e he
    rw [(s.complete_dict (c := commandOf .encode) rfl e).1, BitVec.toNat_ofNat]
    exact (Nat.mod_le _ _).trans he
  refine ⟨(exec_dictSize_range (i := .encode) rfl h).1, ?_⟩
  rcases exec_next h with ⟨-, rfl⟩ | ⟨x, -, rfl⟩
  · exact hle _ (by decide)
  · exact hle _ (encode_run_dict_size_le s.params x)

/-! ### Round trip (R95) -/

/-- DECODE's body on the codes of a greedy parse restores the text, in either command that runs it. -/
theorem exec_decodeBody_parse {i : Instr} {s : State} {x : List Elem} {b : List Byte} {P : List Pattern}
    {ks : List Nat} (hu : usesDict i = true) (hp : s.params.wf = true) (hx : s.HasInput x)
    (hrun : (commandOf i).run s.params x = (decodeTrace ks).finish s.params.outDepth) (h : GreedyParse b P ks)
    (hfit : b.length ≤ s.params.outDepth) : ∃ t, exec i s = .next t ∧ t.Succeeded (b.map byteElem) := by
  have hb : P.flatten = b := h.1
  subst hb
  obtain ⟨t, hnext, hok, -⟩ := exec_decodeBody_accepted hu hp hx hrun h.codesValid h.decodesTo hfit
  exact ⟨t, hnext, hok⟩

/-- DECODE of codes as elements runs its body on the codes (R73). -/
theorem decode_run_codes (p : Params) (c : List Code) :
    (commandOf .decode).run p (c.map codeElem) = (decodeTrace (c.map (·.toNat))).finish p.outDepth := by
  simp [decode_run, Function.comp_def]

/-- The output of a PACK that succeeded on codes is their bytes. -/
theorem pack_output_of_succeeded {s t : State} {c : List Code} {z : List Elem} (hp : s.params.wf = true)
    (hx : s.HasInput (c.map codeElem)) (ht : exec .pack s = .next t) (hok : t.Succeeded z) :
    z = (packBytes c).map byteElem := by
  obtain ⟨d, hrun⟩ := run_of_succeeded hp hx ht hok
  rw [(Command.run_eq_success hrun).2]
  simp only [commandOf, packCommand, map_codeOf_codeElem, packTrace_values]

/-- PACK's bytes raise no framing error (R60, R108). -/
theorem not_framingBad_packBytes (p : Params) (c : List Code) : ¬ framingBad p (packBytes c).length := by
  rintro ⟨-, -, hmod⟩
  rw [packBytes_length] at hmod
  exact packCount_mod_three _ hmod

/-- DECODE_PACKED of PACK's bytes runs DECODE's body on the packed codes, under every UNPACK_RESIDUE1 (R71, R84). -/
theorem decodePacked_run_packBytes (p : Params) (c : List Code) :
    (commandOf .decodePacked).run p ((packBytes c).map byteElem) =
      (decodeTrace (c.map (·.toNat))).finish p.outDepth := by
  rw [decodePacked_run (not_framingBad_packBytes p c), unpackCodes_packBytes]

/-- Settles O60: the codes of the greedy parse decode to its patterns, and packing them loses nothing. -/
theorem encodeDecodeRoundTrip : Obligations.EncodeDecodeRoundTrip := by
  unfold Obligations.EncodeDecodeRoundTrip
  intro s t b y hp hx ht hok
  obtain ⟨P, c, h, rfl, -⟩ := encode_output_of_succeeded hp hx ht hok
  constructor
  · intro s' hp' hx' hfit
    exact exec_decodeBody_parse rfl hp' hx' (decode_run_codes s'.params c) h hfit
  · intro p u s' z hpp hxp hu hz hp' hx' hfit
    obtain rfl := pack_output_of_succeeded hpp hxp hu hz
    exact exec_decodeBody_parse rfl hp' hx' (decodePacked_run_packBytes s'.params c) h hfit

end Sys2Proof.Machine
end

section
/-! PROOFS. Family 60_exceptions.md: command issue and the engine's turn, what sets and clears OVR, what moves irq, and
the completions of a command: their frame, their output, and each error with its cursor. -/

namespace Sys2Proof.Machine

/-! ### Issue and the engine's turn (60_exceptions.md R98 to R101) -/

theorem step_write_cmd_busy {s : State} {w : Word} {rest : List Event}
    (h : s.pending = .host (.write (regAddr .cmd) w) :: rest) (hs : s.engState = .busy) :
    step s = .next { s with pending := rest, response := none, ovr := true } := by
  rw [step_write_reg h, State.writeReg, State.issue_of_busy (s := s.setPending rest) hs]
  rfl

theorem State.issue_of_illegal {s : State} (hs : s.engState = .idle) {w : Word} (hw : ∃ e, decodeWord w = .error e) :
    s.issue w = s.refuseIllegal := by
  obtain ⟨e, he⟩ := hw
  simp [State.issue, hs, he]

theorem State.issue_of_legal {s : State} (hs : s.engState = .idle) {w : Word} (hw : ∃ i, decodeWord w = .ok i) :
    s.issue w = s.accept w := by
  obtain ⟨i, hi⟩ := hw
  simp [State.issue, hs, hi]

/-- Settles O4: a BUSY block overruns, and on an IDLE one the word's fields tell a refusal from an acceptance. -/
theorem cmdWriteIssues : Obligations.CmdWriteIssues := by
  unfold Obligations.CmdWriteIssues
  intro s w rest h
  refine ⟨step_write_cmd_busy h, fun hs hw => ?_, fun hs hrsvd hlo hhi => ?_⟩ <;>
    rw [step_write_reg h, State.writeReg]
  · rw [State.issue_of_illegal (s := s.setPending rest) hs (decodeWord_of_illegal hw)]
    rfl
  · rw [State.issue_of_legal (s := s.setPending rest) hs (decodeWord_of_legal hrsvd hlo hhi)]
    rfl

/-- Settles O6: the two kinds of step that give the engine its turn, on a BUSY and on an IDLE block. -/
theorem stepRunsLatchedCommand : Obligations.StepRunsLatchedCommand := by
  unfold Obligations.StepRunsLatchedCommand
  refine ⟨fun s i hs hi h => ?_, fun s i rest hs hi h => ?_, fun s hs h => ?_, fun s rest hs h => ?_⟩
  · exact (step_empty h).trans (engineTurn_busy hs hi)
  · exact (step_engine h).trans (engineTurn_busy (s := s.setPending rest) hs hi)
  · exact (step_empty h).trans (engineTurn_idle hs)
  · exact (step_engine h).trans (engineTurn_idle (s := s.setPending rest) hs)

/-- On a block that has accepted `i`, the engine's turn is `exec i` (R98, R101). -/
theorem step_of_accepted {t : State} {i : Instr} {rest : List Event} (hs : t.engState = .busy)
    (hop : t.latchedOp = (encode i).extractLsb' 0 4) (h : t.pending = .engine :: rest) :
    step t = exec i (t.setPending rest) :=
  (step_engine h).trans (engineTurn_busy (s := t.setPending rest) hs
    ((congrArg decodeOp hop).trans (decodeOp_encode i)))

/-- Settles O7: the CMD write is an acceptance, and the engine's turn follows it. -/
theorem issuedCommandRuns : Obligations.IssuedCommandRuns := by
  unfold Obligations.IssuedCommandRuns
  intro s i rest hs h
  refine ⟨((s.setPending (.engine :: rest)).accept (encode i)).respondNothing, ?_, rfl, rfl, fun _ => rfl,
    step_of_accepted rfl rfl rfl⟩
  rw [step_write_reg h, State.writeReg, State.issue_encode (s := s.setPending (.engine :: rest)) hs]

/-- Settles O8: `withFetchWord` places the word of a command as an acceptance with the engine's turn next. -/
theorem fetchedWordRuns : Obligations.FetchedWordRuns := by
  unfold Obligations.FetchedWordRuns
  intro s i
  have hfetch : s.withFetchWord 32 (encode i).toNat = (s.accept (encode i)).setPending (.engine :: s.pending) := by
    simp only [State.withFetchWord, decodeTableWord_encode]
  rw [hfetch]
  exact ⟨_, step_of_accepted rfl rfl rfl, rfl, rfl, rfl, fun _ => ⟨rfl, rfl⟩⟩

/-! ### What a completion is (R101, R103) -/

/-- A command's next state is a completion with an output that fits OUT_BUF, or one with a named error. -/
theorem exec_completion {i : Instr} {s t : State} (h : exec i s = .next t) :
    (∃ out d, out.length ≤ s.params.outDepth ∧ t = s.completeOk out d) ∨
      (∃ e d, e.code ≠ .none ∧ t = s.completeError e d) := by
  obtain ⟨b, ⟨-, hb⟩, rfl⟩ := exec_bounded h
  cases b with
  | success out d => exact .inl ⟨out, _, hb, rfl⟩
  | error e d => exact .inr ⟨e, _, hb.1, rfl⟩

theorem exec_done {i : Instr} {s t : State} (h : exec i s = .next t) : t.done = true ∧ t.engState = .idle := by
  obtain ⟨b, -, rfl⟩ := exec_bounded h
  exact s.complete_done _ b

/-- Settles O31: a length that does not fit ends in LENGTH, and a written input is read to the end. -/
theorem everyCommandCompletes : Obligations.EveryCommandCompletes := by
  unfold Obligations.EveryCommandCompletes
  intro i s hread
  have hnext : ∃ t, exec i s = .next t := by
    by_cases hlen : s.params.inDepth < s.latchedLen.toNat
    · exact ⟨_, (exec_eq_execute i s).trans (execute_of_length hlen)⟩
    · obtain ⟨x, hx⟩ := State.exists_hasInput (Nat.not_lt.mp hlen) (hread.resolve_left hlen)
      exact ⟨_, exec_of_hasInput hx⟩
  obtain ⟨t, ht⟩ := hnext
  exact ⟨t, ht, exec_done ht⟩

/-- Settles O33: `exec_frame`. -/
theorem commandsKeepTheFrame : Obligations.CommandsKeepTheFrame := by
  unfold Obligations.CommandsKeepTheFrame
  exact fun i s t h => exec_frame h

/-- Settles O35: a completion without error writes its output, which fits, and nothing above it. -/
theorem successKeepsOutputAbove : Obligations.SuccessKeepsOutputAbove := by
  unfold Obligations.SuccessKeepsOutputAbove
  intro i s t hp h herr
  rcases exec_completion h with ⟨out, d, hfit, rfl⟩ | ⟨e, d, hcode, rfl⟩
  · obtain ⟨-, -, -, hdepth⟩ := params_depth hp
    have hlen : (s.completeOk out d).outLen.toNat = out.length := by
      rw [State.completeOk_outLen, BitVec.toNat_ofNat]
      omega
    rw [hlen]
    refine ⟨rfl, hfit, fun j hj => ?_⟩
    rw [State.completeOk_outElem, dif_neg (Nat.not_lt.mpr hj)]
  · exact absurd herr hcode

/-- Settles O36: a completion with an error forgets OUT_BUF under its own draw. -/
theorem errorOffersNoOutput : Obligations.ErrorOffersNoOutput := by
  unfold Obligations.ErrorOffersNoOutput
  intro i s t h herr
  rcases exec_completion h with ⟨out, d, -, rfl⟩ | ⟨e, d, -, rfl⟩
  · exact absurd rfl herr
  · exact ⟨rfl, s.completeError_outElem e d⟩

/-! ### The overrun bit (R100) -/

/-- A host write clears OVR only at STATUS, by bit [8], or by a soft reset. -/
theorem hostWrite_clears_ovr {a w : Word} {s : State} (h1 : s.ovr = true) (h0 : (hostWrite a w s).ovr = false) :
    a = regAddr .status ∧ w.getLsbD 8 = true ∨ a = regAddr .ctrl ∧ w.getLsbD 1 = true := by
  rcases hostWrite_cases a w s with ⟨ha, h⟩ | ⟨-, h⟩ | ⟨ha, h⟩ | ⟨-, h⟩ | ⟨i, -, -, h⟩ | ⟨-, h⟩ <;> rw [h] at h0
  · rcases s.writeCtrl_cases w with ⟨hw, -⟩ | ⟨-, h⟩
    · exact .inr ⟨ha, hw⟩
    · simp [h, h1] at h0
  · rcases s.issue_cases w with ⟨-, h⟩ | ⟨-, -, h⟩ | ⟨-, i, -, h⟩ <;> simp [h, h1] at h0
  · exact .inl ⟨ha, by simpa [h1] using h0⟩
  · cases hs : s.engState <;> simp [State.writeInLen, hs, h1] at h0
  · cases hs : s.engState <;> simp [State.writeInElem, hs, h1] at h0
  · simp [h1] at h0

/-- Settles O5: the engine keeps OVR by its frame, and of the host's transactions only the two writes clear it. -/
theorem overrunIsSticky : Obligations.OverrunIsSticky := by
  unfold Obligations.OverrunIsSticky
  refine ⟨fun s w rest => step_write_cmd_busy, fun s t h h1 h0 => ?_⟩
  rcases step_next h with ⟨s', hs', hcase⟩ | ⟨x, rest, hpend, rfl⟩ | ⟨rest, hpend, -⟩
  · have hkeep : s'.ovr = s.ovr := by rcases hs' with ⟨rfl, -⟩ | ⟨rest, rfl, -⟩ <;> rfl
    have ht : t.ovr = s'.ovr := by
      rcases hcase with ⟨-, rfl⟩ | ⟨-, i, -, he⟩
      · rfl
      · obtain ⟨-, -, -, -, hovr, -⟩ := exec_frame he
        exact hovr
    rw [ht, hkeep, h1] at h0
    cases h0
  · cases x with
    | read a =>
      obtain ⟨v, d, heq, -, -⟩ := hostRead_eq a (s.setPending rest)
      simp [transact, heq, h1] at h0
    | write a w =>
      refine .inl ⟨a, w, rest, hpend, ?_⟩
      rw [target_eq_reg, target_eq_reg]
      exact hostWrite_clears_ovr (s := s.setPending rest) h1 h0
  · exact .inr ⟨rest, hpend⟩

/-! ### The interrupt line (10_state.md R22, R112) -/

/-- What becomes of irq at a step from `s` to `t`, by what the step does. -/
inductive State.IrqMove (s t : State) : Prop
  | kept (h : t.irq = s.irq)
  | completed (hs : s.engState = .busy) (ht : t.engState = .idle) (h : t.irq = s.irqEn)
  | refused (w : Word) (rest : List Event) (hp : s.pending = .host (.write (regAddr .cmd) w) :: rest)
      (hs : s.engState = .idle) (he : t.err = .illegalCommand) (h : t.irq = s.irqEn)
  | accepted (w : Word) (rest : List Event) (hp : s.pending = .host (.write (regAddr .cmd) w) :: rest)
      (ht : t.engState = .busy) (h : t.irq = false)
  | control (w : Word) (rest : List Event) (hp : s.pending = .host (.write (regAddr .ctrl) w) :: rest)
      (h : t.irq = (w.getLsbD 0 && s.done && !w.getLsbD 1))
  | cleared (w : Word) (rest : List Event) (hp : s.pending = .host (.write (regAddr .status) w) :: rest)
      (h : t.irq = (s.irq && !w.getLsbD 1))
  | reset (rest : List Event) (hp : s.pending = .rst :: rest) (h : t.irq = false)

theorem State.writeCtrl_irq (s : State) (w : Word) :
    (s.writeCtrl w).irq = (w.getLsbD 0 && s.done && !w.getLsbD 1) := by
  rcases s.writeCtrl_cases w with ⟨hw, h⟩ | ⟨hw, h⟩ <;> rw [h, hw] <;> simp [State.irq]

theorem State.writeInLen_irq (s : State) (w : Word) : (s.writeInLen w).irq = s.irq := by
  cases hs : s.engState <;> simp [State.irq, State.writeInLen, hs]

theorem State.writeInElem_irq (s : State) (i : Nat) (w : Word) : (s.writeInElem i w).irq = s.irq := by
  cases hs : s.engState <;> simp [State.irq, State.writeInElem, hs]

/-- A host write, by what its address names. -/
theorem hostWrite_irqMove {s : State} {a w : Word} {rest : List Event} (hp : s.pending = .host (.write a w) :: rest) :
    s.IrqMove (hostWrite a w (s.setPending rest)).respondNothing := by
  rcases hostWrite_cases a w (s.setPending rest) with
    ⟨rfl, h⟩ | ⟨rfl, h⟩ | ⟨rfl, h⟩ | ⟨-, h⟩ | ⟨i, -, -, h⟩ | ⟨-, h⟩ <;> rw [h]
  · exact .control w rest hp (State.writeCtrl_irq _ w)
  · rcases (s.setPending rest).issue_cases w with ⟨-, h⟩ | ⟨hs, -, h⟩ | ⟨-, i, -, h⟩ <;> rw [h]
    · exact .kept rfl
    · exact .refused w rest hp hs rfl (Bool.and_true _)
    · exact .accepted w rest hp rfl (Bool.and_false _)
  · exact .cleared w rest hp (Bool.and_assoc ..).symm
  · exact .kept (State.writeInLen_irq _ w)
  · exact .kept (State.writeInElem_irq _ i w)
  · exact .kept rfl

/-- Every step, by its kind. -/
theorem step_irqMove {s t : State} (h : step s = .next t) : s.IrqMove t := by
  rcases step_next h with ⟨s', hs', hcase⟩ | ⟨x, rest, hp, rfl⟩ | ⟨rest, hp, rfl⟩
  · have hkeep : s'.irqEn = s.irqEn ∧ s'.irq = s.irq := by
      rcases hs' with ⟨rfl, -⟩ | ⟨rest, rfl, -⟩ <;> exact ⟨rfl, rfl⟩
    rcases hcase with ⟨-, rfl⟩ | ⟨hs, i, -, he⟩
    · exact .kept hkeep.2
    · obtain ⟨-, -, -, hen, -⟩ := exec_frame he
      obtain ⟨hdone, hidle⟩ := exec_done he
      refine .completed hs hidle ?_
      rw [State.irq, hdone, hen, hkeep.1, Bool.and_true]
  · cases x with
    | read a =>
      obtain ⟨v, d, heq, -, -⟩ := hostRead_eq a (s.setPending rest)
      rw [transact, heq]
      exact .kept rfl
    | write a w => exact hostWrite_irqMove hp
  · exact .reset rest hp rfl

/-- Settles O27: a rise and a fall, each by the kind of the step. -/
theorem interruptLineCauses : Obligations.InterruptLineCauses := by
  unfold Obligations.InterruptLineCauses
  refine fun s t => ⟨rfl, fun h h0 h1 => ?_, fun h h1 h0 => ?_⟩
  · cases step_irqMove h with
    | kept h => simp [h, h0] at h1
    | completed hs ht h => exact .inl ⟨hs, ht, h.symm.trans h1⟩
    | refused w rest hp hs he h => exact .inr (.inl ⟨w, rest, hp, hs, he, h.symm.trans h1⟩)
    | accepted w rest hp ht h => simp [h] at h1
    | control w rest hp h =>
      obtain ⟨⟨hset, hdone⟩, -⟩ : (w.getLsbD 0 = true ∧ s.done = true) ∧ w.getLsbD 1 = false := by
        simpa only [h, Bool.and_eq_true, Bool.not_eq_true'] using h1
      exact .inr (.inr ⟨w, rest, hp, hset, hdone⟩)
    | cleared w rest hp h => simp [h, h0] at h1
    | reset rest hp h => simp [h] at h1
  · obtain ⟨hen, hdone⟩ : s.irqEn = true ∧ s.done = true := Bool.and_eq_true_iff.mp h1
    cases step_irqMove h with
    | kept h => simp [h, h1] at h0
    | completed hs ht h => simp [h, hen] at h0
    | refused w rest hp hs he h => simp [h, hen] at h0
    | accepted w rest hp ht h => exact .inr (.inl ⟨w, rest, hp, ht⟩)
    | control w rest hp h =>
      refine .inr (.inr (.inl ⟨w, rest, hp, ?_⟩))
      simpa only [h, hdone, Bool.and_true, Bool.and_eq_false_iff, Bool.not_eq_false'] using h0
    | cleared w rest hp h =>
      exact .inl ⟨w, rest, hp, by simpa only [h, h1, Bool.true_and, Bool.not_eq_false'] using h0⟩
    | reset rest hp h => exact .inr (.inr (.inr ⟨rest, hp⟩))

/-! ### Errors raised before a body starts (R102, R107 to R109) -/

/-- An error on a fresh dictionary reports itself at its cursor, with the readbacks of R81, R93 or R72. -/
theorem State.complete_fresh_error (s : State) (i : Instr) {e : CommandError} (he : e.cursor < 2 ^ 32) :
    (s.complete (commandOf i) (.error e .fresh)).Failed e.code e.cursor ∧
      s.FreshReadback i (s.complete (commandOf i) (.error e .fresh)) := by
  refine ⟨s.completeError_failed _ he, ?_⟩
  unfold State.FreshReadback
  split
  · next hu =>
    exact s.complete_showsDict ((commandOf_hasDict i).trans hu) (.error e .fresh)
      (by simp [BodyEnd.dict, DictCount.fresh]) (by simp [BodyEnd.dict, DictCount.fresh])
  · next hu => exact s.complete_keepsDict ((commandOf_hasDict i).trans (eq_false_of_ne_true hu)) _

/-- A check's error is the command's. -/
theorem exec_of_check {i : Instr} {s : State} {x : List Elem} {e : CommandError} (hx : s.HasInput x)
    (h : (commandOf i).check s.params x = some e) :
    ∃ t, exec i s = .next t ∧ t.Failed e.code e.cursor ∧ s.FreshReadback i t := by
  refine ⟨_, exec_of_hasInput hx, ?_⟩
  rw [Command.run_of_check h]
  exact s.complete_fresh_error i ((check_error h).2.trans_lt hx.length_lt)

/-- A body stops of itself only at a code that DECODE does not accept (R105). -/
theorem body_stop_code {i : Instr} {p : Params} {x : List Elem} {e : CommandError}
    (h : ((commandOf i).body p x).stop = some e) : e.code = .invalidCode := by
  cases i with
  | unpack | pack => cases h
  | decode | decodePacked =>
    obtain ⟨-, hstop, -⟩ := decodeTrace_bound _
    exact (hstop e h).1
  | encode =>
    obtain ⟨-, -, -, hnone⟩ := encodeTrace_bounded (x.map byteOf)
    cases hnone.symm.trans h

/-- Which errors a command's next state can report, and where they come from. -/
theorem exec_err {i : Instr} {s t : State} (h : exec i s = .next t) :
    (t.err = .length ∧ s.params.inDepth < s.latchedLen.toNat) ∨
      (∃ x e, s.HasInput x ∧ (commandOf i).check s.params x = some e ∧ t.err = e.code) ∨
      t.err = .outputOverflow ∨ t.err = .invalidCode ∨ t.err = .none := by
  rcases exec_next h with ⟨hlen, rfl⟩ | ⟨x, hx, rfl⟩
  · exact .inl ⟨rfl, hlen⟩
  · right
    cases hc : (commandOf i).check s.params x with
    | some e =>
      rw [Command.run_of_check hc]
      exact .inl ⟨x, e, hx, hc, rfl⟩
    | none =>
      rw [Command.run_of_pass hc]
      right
      rcases ((commandOf i).body s.params x).finish_cases s.params.outDepth with
        ⟨em, -, hf⟩ | ⟨e, -, hstop, hf⟩ | ⟨-, -, hf⟩ <;> rw [hf]
      · exact .inl rfl
      · exact .inr (.inl (body_stop_code hstop))
      · exact .inr (.inr rfl)

/-- An error that only checks raise comes from a check of the input. -/
theorem check_of_exec_err {i : Instr} {s t : State} {x : List Elem} (hx : s.HasInput x) (h : exec i s = .next t)
    (herr : t.err = .framing ∨ t.err = .elementRange) :
    ∃ e, (commandOf i).check s.params x = some e ∧ e.code = t.err := by
  rcases exec_err h with ⟨hlen, -⟩ | ⟨x', e, hx', hc, he⟩ | he
  · simp [hlen] at herr
  · obtain rfl := hx.unique hx'
    exact ⟨e, hc, he.symm⟩
  · rcases he with he | he | he <;> simp [he] at herr

/-- Settles O37: LENGTH comes before every read, and neither a check nor a body raises it. -/
theorem lengthError : Obligations.LengthError := by
  unfold Obligations.LengthError
  refine fun i s => ⟨fun hlen => ⟨_, (exec_eq_execute i s).trans (execute_of_length hlen), ?_⟩, fun t h herr => ?_⟩
  · exact s.complete_fresh_error i (e := { code := .length, cursor := 0 }) (by decide)
  · rcases exec_err h with ⟨-, hlen⟩ | ⟨x, e, -, hc, he⟩ | he
    · exact hlen
    · have hcode : e.code = .length := he.symm.trans herr
      have hcheck := (check_error hc).1
      simp [hcode] at hcheck
    · simp [herr] at he

/-! ### The two checks (R108, R109) -/

/-- A framing error is reported before any element is checked (R102). -/
theorem packedCheck_of_framingBad {p : Params} {x : List Elem} (h : framingBad p x.length) :
    packedCheck p x = some { code := .framing, cursor := x.length - 1 } := by
  rw [packedCheck, framingCheck_of_bad h]

theorem packedCheck_of_not_framingBad {p : Params} {x : List Elem} (h : ¬ framingBad p x.length) :
    packedCheck p x = elementCheck notByte x := by
  rw [packedCheck, framingCheck_eq_none.mpr h]

theorem elementCheck_code {bad : Elem → Bool} {x : List Elem} {e : CommandError} (h : elementCheck bad x = some e) :
    e.code = .elementRange := by
  obtain ⟨j, rfl, -⟩ := elementCheck_eq_some.mp h
  rfl

/-- Where each check's error comes from: the framing of a packed input, or the command's element range. -/
theorem check_eq_some {i : Instr} {p : Params} {x : List Elem} {e : CommandError}
    (h : (commandOf i).check p x = some e) :
    (e.code = .framing ∧ (i = .unpack ∨ i = .decodePacked) ∧ framingBad p x.length) ∨
      (e.code = .elementRange ∧ i = .pack ∧ elementCheck notCode x = some e) ∨
      (e.code = .elementRange ∧ (i = .unpack ∨ i = .decodePacked ∨ i = .encode) ∧ elementCheck notByte x = some e) := by
  have hpacked : packedCheck p x = some e →
      (e.code = .framing ∧ framingBad p x.length) ∨ (e.code = .elementRange ∧ elementCheck notByte x = some e) := by
    intro h
    by_cases hf : framingBad p x.length
    · cases (packedCheck_of_framingBad hf).symm.trans h
      exact .inl ⟨rfl, hf⟩
    · have hel := (packedCheck_of_not_framingBad hf).symm.trans h
      exact .inr ⟨elementCheck_code hel, hel⟩
  cases i with
  | unpack | decodePacked => simpa using hpacked h
  | pack => exact .inr (.inl ⟨elementCheck_code h, rfl, h⟩)
  | decode => cases h
  | encode => exact .inr (.inr ⟨elementCheck_code h, by simp, h⟩)

/-- Settles O38: the framing check comes first in the two commands that have it, and nothing else raises its error. -/
theorem framingError : Obligations.FramingError := by
  unfold Obligations.FramingError
  refine fun s x hx => ⟨fun i hi hbad => ?_, fun i t h herr => ?_⟩
  · have hcheck : (commandOf i).check s.params x = some { code := .framing, cursor := x.length - 1 } := by
      rcases hi with rfl | rfl <;> exact packedCheck_of_framingBad hbad
    exact exec_of_check hx hcheck
  · obtain ⟨e, hc, he⟩ := check_of_exec_err hx h (.inl herr)
    have hcode : e.code = .framing := he.trans herr
    rcases check_eq_some hc with ⟨-, hi, hbad⟩ | ⟨hrange, -⟩ | ⟨hrange, -⟩
    · exact ⟨hi, hbad⟩
    all_goals cases hcode.symm.trans hrange

section range

variable {bad : Elem → Bool} {bound : Nat} (hbad : ∀ {e : Elem}, bad e = false ↔ e.toNat < bound) {x : List Elem}

include hbad

/-- The lowest element at or above the bound is the one reported. -/
theorem elementCheck_lowest {j : Nat} (hj : j < x.length) (hge : bound ≤ x[j].toNat)
    (hlow : ∀ k (hk : k < x.length), k < j → x[k].toNat < bound) :
    elementCheck bad x = some { code := .elementRange, cursor := j } := by
  refine elementCheck_eq_some.mpr ⟨j, rfl, hj, ?_, fun k hk => hbad.mpr (hlow k (hk.trans hj) hk)⟩
  rw [← Bool.not_eq_false, hbad]
  exact Nat.not_lt.mpr hge

theorem exists_out_of_range {e : CommandError} (h : elementCheck bad x = some e) : ∃ v ∈ x, bound ≤ v.toNat := by
  obtain ⟨j, -, hj, hb, -⟩ := elementCheck_eq_some.mp h
  rw [← Bool.not_eq_false, hbad] at hb
  exact ⟨x[j], List.getElem_mem hj, Nat.not_lt.mp hb⟩

end range

/-- Settles O39: each command's element check, with the bound of its input kind. -/
theorem elementRangeError : Obligations.ElementRangeError := by
  unfold Obligations.ElementRangeError
  refine fun s x hx => ⟨fun i j hj hi hge hlow => ?_, fun j hj hge hlow => ?_, fun i t h herr => ?_⟩
  · have hcheck : (commandOf i).check s.params x = elementCheck notByte x := by
      rcases hi with ⟨rfl | rfl, hframe⟩ | rfl
      · exact packedCheck_of_not_framingBad hframe
      · exact packedCheck_of_not_framingBad hframe
      · rfl
    exact exec_of_check hx (hcheck.trans (elementCheck_lowest notByte_eq_false hj hge hlow))
  · exact exec_of_check (i := .pack) hx (elementCheck_lowest notCode_eq_false hj hge hlow)
  · obtain ⟨e, hc, he⟩ := check_of_exec_err hx h (.inr herr)
    rcases check_eq_some hc with ⟨hcode, -⟩ | ⟨-, hi, hel⟩ | ⟨-, hi, hel⟩
    · simp [he, herr] at hcode
    · exact .inl ⟨hi, exists_out_of_range notCode_eq_false hel⟩
    · exact .inr ⟨hi, exists_out_of_range notByte_eq_false hel⟩

/-! ### The output overflow of UNPACK and PACK (R104, R106) -/

/-- A body without a dictionary overflows at the cursor of its emission number `cap`. -/
theorem plainTrace_finish_overflow {es : List (Elem × Nat)} {cap : Nat} (h : cap < es.length) :
    (plainTrace es).finish cap = .error { code := .outputOverflow, cursor := es[cap].2 } .fresh := by
  rw [Trace.finish_overflow (em := { value := es[cap].1, cursor := es[cap].2, dict := .fresh })]
  simp [plainTrace, h]

theorem unpackTrace_finish_overflow {r : Residue1} {b : List Byte} {cap : Nat} (h : cap < unpackCount r b.length) :
    (unpackTrace r b).finish cap =
      .error
        { code := .outputOverflow
          cursor := if cap < 2 * (b.length / 3) then 3 * (cap / 2) + cap % 2 else b.length - 2 } .fresh := by
  rw [← unpackFrom_length r b 0] at h
  rw [unpackTrace, plainTrace_finish_overflow (by simpa using h), List.getElem_map, unpackFrom_cursor r b 0 cap h,
    Nat.zero_add]

theorem packTrace_finish_overflow {c : List Code} {cap : Nat} (h : cap < packCount c.length) :
    (packTrace c).finish cap =
      .error
        { code := .outputOverflow
          cursor := if cap < 3 * (c.length / 2) then 2 * (cap / 3) else c.length - 1 } .fresh := by
  rw [← packFrom_length c 0] at h
  rw [packTrace, plainTrace_finish_overflow (by simpa using h), List.getElem_map, packFrom_cursor c 0 cap h,
    Nat.zero_add]

/-- Settles O44: code number OUT_DEPTH is the first that does not fit. -/
theorem unpackOverflow : Obligations.UnpackOverflow := by
  unfold Obligations.UnpackOverflow
  intro s b hp hx hframe hov
  obtain ⟨t, hnext, hfail, hkeep, -⟩ :=
    exec_of_error (i := .unpack) hp hx ((unpack_run hframe).trans (unpackTrace_finish_overflow hov))
  exact ⟨t, hnext, hkeep rfl, hfail⟩

/-- Settles O47: byte number OUT_DEPTH is the first that does not fit. -/
theorem packOverflow : Obligations.PackOverflow := by
  unfold Obligations.PackOverflow
  intro s c hp hx hov
  obtain ⟨t, hnext, hfail, hkeep, -⟩ :=
    exec_of_error (i := .pack) hp hx (pack_run.trans (packTrace_finish_overflow hov))
  exact ⟨t, hnext, hkeep rfl, hfail⟩

end Sys2Proof.Machine
end

section
/-! PROOFS. Family 70_reset_and_hazards.md: the reset table after each kind of reset, and the progress of an accepted
command: what a BUSY block needs to complete, and that no transaction takes it away. -/

namespace Sys2Proof.Machine

/-! ### Progress (70_reset_and_hazards.md R124) -/

/-- At most `n` steps lead from `s` to an IDLE block. -/
def State.IdleWithin (s : State) (n : Nat) : Prop :=
  ∃ k t, k ≤ n ∧ runSteps k s = .next t ∧ t.engState = .idle

theorem State.IdleWithin.of_idle {s : State} (hs : s.engState = .idle) (n : Nat) : s.IdleWithin n :=
  ⟨0, s, Nat.zero_le n, rfl, hs⟩

theorem State.IdleWithin.of_step {s t : State} {n : Nat} (h : step s = .next t) (ht : t.IdleWithin n) :
    s.IdleWithin (n + 1) := by
  obtain ⟨k, u, hk, hrun, hu⟩ := ht
  exact ⟨k + 1, u, Nat.succ_le_succ hk, by rw [runSteps, h]; exact hrun, hu⟩

/-- The block runs a command whose input the engine can read, or whose length it refuses (R43, R98, R107). -/
structure State.CanComplete (s : State) : Prop where
  busy : s.engState = .busy
  op : ∃ i, decodeOp s.latchedOp = .ok i
  input : s.params.inDepth < s.latchedLen.toNat ∨ ∀ j, j < s.latchedLen.toNat → s.written j = true

namespace State.CanComplete

variable {s : State}

theorem setPending (h : s.CanComplete) (rest : List Event) : (s.setPending rest).CanComplete :=
  ⟨h.busy, h.op, h.input⟩

/-- The engine's turn completes the command (R101). -/
theorem engineTurn (h : s.CanComplete) : ∃ t, engineTurn s = .next t ∧ t.engState = .idle := by
  obtain ⟨i, hi⟩ := h.op
  obtain ⟨t, ht, -, hidle⟩ := everyCommandCompletes i s h.input
  exact ⟨t, (engineTurn_busy h.busy hi).trans ht, hidle⟩

/-- A transaction that does not cancel the command leaves its input and its latches locked (R50). -/
theorem transact (h : s.CanComplete) (x : Transaction) (hbusy : (transact x s).engState = .busy) :
    (Machine.transact x s).CanComplete := by
  have hkept := transact_inputKept h.busy x
  obtain ⟨-, hlen, hop⟩ := hkept.latches hbusy
  refine ⟨hbusy, hop ▸ h.op, ?_⟩
  simpa only [transact_params, hlen, (hkept.elems _).2] using h.input

/-- By induction on the inputs to come: each is used up in one step, and the engine moves after the last. -/
theorem idleWithin (h : s.CanComplete) : s.IdleWithin (s.pending.length + 1) := by
  induction hp : s.pending generalizing s with
  | nil =>
    obtain ⟨t, ht, hidle⟩ := h.engineTurn
    exact .of_step ((step_empty hp).trans ht) (.of_idle hidle 0)
  | cons e rest ih =>
    cases e with
    | engine =>
      obtain ⟨t, ht, hidle⟩ := (h.setPending rest).engineTurn
      exact .of_step ((step_engine hp).trans ht) (.of_idle hidle _)
    | rst => exact .of_step (step_rst hp) (.of_idle rfl _)
    | host x =>
      refine .of_step (step_host hp) ?_
      cases hs : (Machine.transact x (s.setPending rest)).engState with
      | idle => exact .of_idle hs _
      | busy => exact ih ((h.setPending rest).transact x hs) (transact_pending x _)

end State.CanComplete

/-- Settles O9: a BUSY state of the invariant holds a command, which `CanComplete` takes to its end. -/
theorem acceptedCommandCompletes : Obligations.AcceptedCommandCompletes := by
  unfold Obligations.AcceptedCommandCompletes
  intro s hinv hbusy hinput
  exact State.CanComplete.idleWithin ⟨hbusy, hinv.busy_op hbusy, hinput⟩

/-! ### The reset table (70_reset_and_hazards.md R117, R119) -/

/-- PARAM field by field (10_state.md R10). -/
theorem paramWord_fields (p : Params) :
    (paramWord p).extractLsb' 0 4 = 12#4 ∧ (paramWord p).extractLsb' 4 2 = residueBits p.residue1 ∧
      (paramWord p).extractLsb' 6 26 = 0#26 := by
  unfold paramWord
  cases p.residue1 <;> decide

/-- STATUS of an IDLE block with nothing to report (R15). -/
theorem State.statusWord_eq_zero {s : State} (hs : s.engState = .idle) (hdone : s.done = false) (herr : s.err = .none)
    (hovr : s.ovr = false) : s.statusWord = 0#32 := by
  rw [State.statusWord, State.busy, hs, hdone, herr, hovr]
  rfl

/-- CTRL with IRQ_EN clear (R13). -/
theorem State.ctrlWord_eq_zero {s : State} (hen : s.irqEn = false) : s.ctrlWord = 0#32 := by
  rw [State.ctrlWord_eq, hen]
  rfl

theorem State.irq_of_not_done {s : State} (hdone : s.done = false) : s.irq = false := by
  rw [State.irq, hdone, Bool.and_false]

theorem State.written_of_inBuf_nil {s : State} (h : s.inBuf = []) (i : Nat) : s.written i = false := by
  rw [State.written, h]
  rfl

theorem State.softReset_outElem_of_idle {s : State} {b : Bool} (hs : s.engState = .idle) (i : Nat) :
    (s.softReset b).outElem i = s.outElem i := by
  rw [State.outElem, State.softReset_idle_outBuf s b hs, State.softReset_idle_outFill s b hs, State.outElem]

/-- Settles O11: the registers are those of `hardReset`, and the constants read the parameters it keeps. -/
theorem hardResetSetsTheTable : Obligations.HardResetSetsTheTable := by
  unfold Obligations.HardResetSetsTheTable
  intro s rest h
  obtain ⟨hwidth, hresidue, hzero⟩ := paramWord_fields s.params
  have hctrl : (s.hardReset.setPending rest).ctrlWord = 0#32 := State.ctrlWord_eq_zero rfl
  have hstatus : (s.hardReset.setPending rest).statusWord = 0#32 := State.statusWord_eq_zero rfl rfl rfl rfl
  exact ⟨_, step_rst h, rfl, rfl, rfl, hwidth, hresidue, hzero, rfl, rfl, hctrl, hstatus, rfl, rfl, rfl, rfl, rfl,
    State.irq_of_not_done rfl, rfl, rfl, State.written_of_inBuf_nil rfl⟩

/-- Settles O12: the write is `softReset`, which keeps the input, and OUT_BUF of an IDLE block. -/
theorem softResetResets : Obligations.SoftResetResets := by
  unfold Obligations.SoftResetResets
  intro s w rest h hw
  have hstep : step s = .next ((s.setPending rest).softReset (w.getLsbD 0)).respondNothing := by
    rw [step_write_reg h, State.writeReg, State.writeCtrl_of_set hw]
  have hstatus : ((s.setPending rest).softReset (w.getLsbD 0)).statusWord = 0#32 :=
    State.statusWord_eq_zero (by simp) (by simp) (by simp) (by simp)
  have hirq : ((s.setPending rest).softReset (w.getLsbD 0)).irq = false := State.irq_of_not_done (by simp)
  have hkept := State.InputKept.softReset (s.setPending rest) (w.getLsbD 0)
  refine ⟨_, hstep, ?_, ?_, ?_, hstatus, ?_, ?_, ?_, ?_, ?_, ?_, ?_, hirq, hkept.elems,
    State.softReset_outElem_of_idle (s := s.setPending rest) (b := w.getLsbD 0)⟩ <;> simp

/-- Settles O10: each value is the one that `resetFor` writes, for any parameters. -/
theorem resetStateValues : Obligations.ResetStateValues := by
  unfold Obligations.ResetStateValues
  have hctrl : State.reset.ctrlWord = 0#32 := State.ctrlWord_eq_zero rfl
  have hstatus : State.reset.statusWord = 0#32 := State.statusWord_eq_zero rfl rfl rfl rfl
  exact ⟨hctrl, hstatus, rfl, rfl, rfl, rfl, rfl, rfl, State.irq_of_not_done rfl, rfl, State.written_of_inBuf_nil rfl⟩

end Sys2Proof.Machine
end
